-- ==== Sys2Proof/Word.lean ====
section
/-! DEFINITION. The bit-vector types of the machine (00_scope.md R7, R8; 10_state.md R19, R20). -/

namespace Sys2Proof

/-- An 8-bit memory cell, general register or timer (R7). -/
abbrev Byte := BitVec 8

/-- A 16-bit instruction word, index register, program counter or stack entry (R7, R19). -/
abbrev Word := BitVec 16

/-- A 4-bit register selector `x` or `y` (R16, R20). -/
abbrev Reg := BitVec 4

/-- A 4-bit immediate `n` (R65). -/
abbrev Nibble := BitVec 4

/-- A 12-bit address field `nnn` (R65). -/
abbrev Addr12 := BitVec 12

/-- VF, the flag register: register 15 (R21). -/
def vF : Reg := 15#4

/-- V0, the offset register of `JP V0, nnn` (R93). -/
def v0 : Reg := 0#4

end Sys2Proof
end

