-- ==== Sys2Proof/Syntax.lean ====
section
/-! DEFINITION. The instructions: one constructor per row of spec/opcode_table.json, with the fields the
row names (30_encoding.md R71 to R75, R81). -/

namespace Sys2Proof

/-- An instruction with its operand fields. `x` and `y` select registers, `kk`, `n` and `nnn` are immediates
(R64, R65). The four default rows of the table are the unassigned words of families 0, 8, E and F; each carries
its word, which `UnassignedFault(W)` reports (R164; log 13). -/
inductive Instr where
  /-- CLS, R118. -/
  | cls
  /-- RET, R85. -/
  | ret
  /-- JP nnn, R86. -/
  | jp (nnn : Addr12)
  /-- CALL nnn, R87. -/
  | call (nnn : Addr12)
  /-- SE Vx, kk, R89. -/
  | seImm (x : Reg) (kk : Byte)
  /-- SNE Vx, kk, R90. -/
  | sneImm (x : Reg) (kk : Byte)
  /-- SE Vx, Vy, R91. -/
  | seReg (x y : Reg)
  /-- LD Vx, kk, R96. -/
  | ldImm (x : Reg) (kk : Byte)
  /-- ADD Vx, kk, R97. -/
  | addImm (x : Reg) (kk : Byte)
  /-- LD Vx, Vy, R98. -/
  | ldReg (x y : Reg)
  /-- OR Vx, Vy, R99. -/
  | orReg (x y : Reg)
  /-- AND Vx, Vy, R100. -/
  | andReg (x y : Reg)
  /-- XOR Vx, Vy, R101. -/
  | xorReg (x y : Reg)
  /-- ADD Vx, Vy, R102. -/
  | addReg (x y : Reg)
  /-- SUB Vx, Vy, R103. -/
  | sub (x y : Reg)
  /-- SHR Vx (y decoded and ignored), R104. -/
  | shr (x y : Reg)
  /-- SUBN Vx, Vy, R105. -/
  | subn (x y : Reg)
  /-- SHL Vx (y decoded and ignored), R106. -/
  | shl (x y : Reg)
  /-- SNE Vx, Vy, R92. -/
  | sneReg (x y : Reg)
  /-- LD I, nnn, R111. -/
  | ldI (nnn : Addr12)
  /-- JP V0, nnn, R93. -/
  | jpV0 (nnn : Addr12)
  /-- RND Vx, kk, R107. -/
  | rnd (x : Reg) (kk : Byte)
  /-- DRW Vx, Vy, n, R119. -/
  | drw (x y : Reg) (n : Nibble)
  /-- SKP Vx, R129. -/
  | skp (x : Reg)
  /-- SKNP Vx, R130. -/
  | sknp (x : Reg)
  /-- LD Vx, DT, R114. -/
  | ldVxDT (x : Reg)
  /-- LD Vx, K, R131. -/
  | ldVxK (x : Reg)
  /-- LD DT, Vx, R115. -/
  | ldDT (x : Reg)
  /-- LD ST, Vx, R116. -/
  | ldST (x : Reg)
  /-- ADD I, Vx, R112. -/
  | addI (x : Reg)
  /-- LD F, Vx, R113. -/
  | ldF (x : Reg)
  /-- LD B, Vx, R134. -/
  | ldB (x : Reg)
  /-- LD [I], Vx, R135. -/
  | ldAtI (x : Reg)
  /-- LD Vx, [I], R136. -/
  | ldVxAtI (x : Reg)
  /-- An unassigned word of family 0, R72, R94. -/
  | nop0 (w : Word)
  /-- An unassigned word of family 8, R73, R94. -/
  | nop8 (w : Word)
  /-- An unassigned word of family E, R74, R94. -/
  | nopE (w : Word)
  /-- An unassigned word of family F, R75, R94. -/
  | nopF (w : Word)
  deriving DecidableEq, Repr

end Sys2Proof
end

