-- ==== Sys2Proof/WellFormed.lean ====
section
/-! DEFINITION. Well-formed instructions. The operand fields are exact by their types; the one check left is
that a NOP row's word is an unassigned word of its own family (30_encoding.md R72 to R76). -/

namespace Sys2Proof

/-- The low nibbles of family 0 that name an operation (R72). -/
def assigned0 : List (BitVec 4) := [0x0#4, 0xE#4]

/-- The low nibbles of family 8 that name an operation (R73). -/
def assigned8 : List (BitVec 4) :=
  [0x0#4, 0x1#4, 0x2#4, 0x3#4, 0x4#4, 0x5#4, 0x6#4, 0x7#4, 0xE#4]

/-- The low nibbles of family E that name an operation (R74). -/
def assignedE : List (BitVec 4) := [0xE#4, 0x1#4]

/-- The low bytes of family F that name an operation (R75). -/
def assignedF : List (BitVec 8) :=
  [0x07#8, 0x0A#8, 0x15#8, 0x18#8, 0x1E#8, 0x29#8, 0x33#8, 0x55#8, 0x65#8]

/-- `w` lies in `fam` and its sub-table key of four bits names no operation. -/
def unassignedNibble (fam : BitVec 4) (assigned : List (BitVec 4)) (w : Word) : Bool :=
  w.extractLsb' 12 4 == fam && !assigned.contains (w.extractLsb' 0 4)

/-- `w` lies in family F and its low byte names no operation. -/
def unassignedByteF (w : Word) : Bool :=
  w.extractLsb' 12 4 == 0xF#4 && !assignedF.contains (w.extractLsb' 0 8)

/-- The check of a whole instruction. -/
def Instr.wf : Instr → Bool
  | .nop0 w => unassignedNibble 0x0#4 assigned0 w
  | .nop8 w => unassignedNibble 0x8#4 assigned8 w
  | .nopE w => unassignedNibble 0xE#4 assignedE w
  | .nopF w => unassignedByteF w
  | .cls | .ret | .jp _ | .call _ | .seImm _ _ | .sneImm _ _ | .seReg _ _ | .ldImm _ _ | .addImm _ _
  | .ldReg _ _ | .orReg _ _ | .andReg _ _ | .xorReg _ _ | .addReg _ _ | .sub _ _ | .shr _ _ | .subn _ _
  | .shl _ _ | .sneReg _ _ | .ldI _ | .jpV0 _ | .rnd _ _ | .drw _ _ _ | .skp _ | .sknp _ | .ldVxDT _
  | .ldVxK _ | .ldDT _ | .ldST _ | .addI _ | .ldF _ | .ldB _ | .ldAtI _ | .ldVxAtI _ => true

end Sys2Proof
end

