-- ==== Sys2Proof/Decode.lean ====
section
/-! DEFINITION. Decode and encode (30_encoding.md). Decoding of a word is total (R71) and depends on the word
alone (R84); decoding of bytes refuses, by name, only when fewer than two bytes are left (R63). -/

namespace Sys2Proof

/-- The primary key W[15:12] (R64, R67). -/
def family (w : Word) : BitVec 4 := w.extractLsb' 12 4

/-- `x` = W[11:8] (R64). -/
def fieldX (w : Word) : Reg := w.extractLsb' 8 4

/-- `y` = W[7:4] (R64). -/
def fieldY (w : Word) : Reg := w.extractLsb' 4 4

/-- `n` = W[3:0], also the sub-table key of families 0, 8 and E (R64, R68). -/
def fieldN (w : Word) : Nibble := w.extractLsb' 0 4

/-- `kk` = W[7:0], also the sub-table key of family F (R64, R68). -/
def fieldKK (w : Word) : Byte := w.extractLsb' 0 8

/-- `nnn` = W[11:0] (R64). -/
def fieldNNN (w : Word) : Addr12 := w.extractLsb' 0 12

/-- The sub-table of family 0 (R72). -/
def decodeFamily0 (w : Word) : Instr :=
  match fieldN w with
  | 0x0#4 => .cls
  | 0xE#4 => .ret
  | _ => .nop0 w

/-- The sub-table of family 8 (R73). -/
def decodeFamily8 (w : Word) : Instr :=
  match fieldN w with
  | 0x0#4 => .ldReg (fieldX w) (fieldY w)
  | 0x1#4 => .orReg (fieldX w) (fieldY w)
  | 0x2#4 => .andReg (fieldX w) (fieldY w)
  | 0x3#4 => .xorReg (fieldX w) (fieldY w)
  | 0x4#4 => .addReg (fieldX w) (fieldY w)
  | 0x5#4 => .sub (fieldX w) (fieldY w)
  | 0x6#4 => .shr (fieldX w) (fieldY w)
  | 0x7#4 => .subn (fieldX w) (fieldY w)
  | 0xE#4 => .shl (fieldX w) (fieldY w)
  | _ => .nop8 w

/-- The sub-table of family E (R74). -/
def decodeFamilyE (w : Word) : Instr :=
  match fieldN w with
  | 0xE#4 => .skp (fieldX w)
  | 0x1#4 => .sknp (fieldX w)
  | _ => .nopE w

/-- The sub-table of family F (R75). -/
def decodeFamilyF (w : Word) : Instr :=
  match fieldKK w with
  | 0x07#8 => .ldVxDT (fieldX w)
  | 0x0A#8 => .ldVxK (fieldX w)
  | 0x15#8 => .ldDT (fieldX w)
  | 0x18#8 => .ldST (fieldX w)
  | 0x1E#8 => .addI (fieldX w)
  | 0x29#8 => .ldF (fieldX w)
  | 0x33#8 => .ldB (fieldX w)
  | 0x55#8 => .ldAtI (fieldX w)
  | 0x65#8 => .ldVxAtI (fieldX w)
  | _ => .nopF w

/-- `Decode(W)`: the primary table (R71). -/
def decodeWord (w : Word) : Instr :=
  match family w with
  | 0x0#4 => decodeFamily0 w
  | 0x1#4 => .jp (fieldNNN w)
  | 0x2#4 => .call (fieldNNN w)
  | 0x3#4 => .seImm (fieldX w) (fieldKK w)
  | 0x4#4 => .sneImm (fieldX w) (fieldKK w)
  | 0x5#4 => .seReg (fieldX w) (fieldY w)
  | 0x6#4 => .ldImm (fieldX w) (fieldKK w)
  | 0x7#4 => .addImm (fieldX w) (fieldKK w)
  | 0x8#4 => decodeFamily8 w
  | 0x9#4 => .sneReg (fieldX w) (fieldY w)
  | 0xA#4 => .ldI (fieldNNN w)
  | 0xB#4 => .jpV0 (fieldNNN w)
  | 0xC#4 => .rnd (fieldX w) (fieldKK w)
  | 0xD#4 => .drw (fieldX w) (fieldY w) (fieldN w)
  | 0xE#4 => decodeFamilyE w
  | _ => decodeFamilyF w

/-- The big-endian word of two consecutive bytes (R10, R45). -/
def wordOfBytes (hi lo : Byte) : Word := hi ++ lo

/-- The byte at the lower address of a stored word (R45). -/
def highByte (w : Word) : Byte := w.extractLsb' 8 8

/-- The byte at the higher address of a stored word (R45). -/
def lowByte (w : Word) : Byte := w.extractLsb' 0 8

/-- Why bytes do not decode. -/
inductive DecodeError where
  /-- Fewer than the two bytes of an instruction (R63). Safe. -/
  | truncated
  deriving DecidableEq, Repr

/-- Decode the first instruction of a byte sequence and give the rest back; exactly two bytes are consumed
(R63). -/
def decode : List Byte → Except DecodeError (Instr × List Byte)
  | hi :: lo :: rest => .ok (decodeWord (wordOfBytes hi lo), rest)
  | _ => .error .truncated

/-- The instruction of a row's word `w` of `nbits` bits, laid out as the hardware stores it (R45); bits above
`nbits` are 0, and no instruction is longer than 16 bits (R63). -/
def decodeTableWord (nbits w : Nat) : Option Instr :=
  if nbits ≤ 16 then
    let word : Word := BitVec.ofNat 16 (w % 2 ^ nbits)
    match decode [highByte word, lowByte word] with
    | .ok (i, _) => some i
    | .error _ => none
  else none

/-! ### The encoder -/

/-- A word of family `f` with a 12-bit address. -/
def packAddr (f : BitVec 4) (nnn : Addr12) : Word := f ++ nnn

/-- A word of family `f` with a register and a byte. -/
def packRegByte (f : BitVec 4) (x : Reg) (kk : Byte) : Word := f ++ x ++ kk

/-- A word of family `f` with two registers and a nibble. -/
def packRegs (f : BitVec 4) (x y : Reg) (n : Nibble) : Word := f ++ x ++ y ++ n

/-- The canonical word of an instruction (R81): the bits that take no part in decoding are as R81 writes them
(log 14). A NOP row keeps its own word. -/
def encode : Instr → Word
  | .cls => 0x00E0#16
  | .ret => 0x00EE#16
  | .jp nnn => packAddr 0x1#4 nnn
  | .call nnn => packAddr 0x2#4 nnn
  | .seImm x kk => packRegByte 0x3#4 x kk
  | .sneImm x kk => packRegByte 0x4#4 x kk
  | .seReg x y => packRegs 0x5#4 x y 0x0#4
  | .ldImm x kk => packRegByte 0x6#4 x kk
  | .addImm x kk => packRegByte 0x7#4 x kk
  | .ldReg x y => packRegs 0x8#4 x y 0x0#4
  | .orReg x y => packRegs 0x8#4 x y 0x1#4
  | .andReg x y => packRegs 0x8#4 x y 0x2#4
  | .xorReg x y => packRegs 0x8#4 x y 0x3#4
  | .addReg x y => packRegs 0x8#4 x y 0x4#4
  | .sub x y => packRegs 0x8#4 x y 0x5#4
  | .shr x y => packRegs 0x8#4 x y 0x6#4
  | .subn x y => packRegs 0x8#4 x y 0x7#4
  | .shl x y => packRegs 0x8#4 x y 0xE#4
  | .sneReg x y => packRegs 0x9#4 x y 0x0#4
  | .ldI nnn => packAddr 0xA#4 nnn
  | .jpV0 nnn => packAddr 0xB#4 nnn
  | .rnd x kk => packRegByte 0xC#4 x kk
  | .drw x y n => packRegs 0xD#4 x y n
  | .skp x => packRegByte 0xE#4 x 0x9E#8
  | .sknp x => packRegByte 0xE#4 x 0xA1#8
  | .ldVxDT x => packRegByte 0xF#4 x 0x07#8
  | .ldVxK x => packRegByte 0xF#4 x 0x0A#8
  | .ldDT x => packRegByte 0xF#4 x 0x15#8
  | .ldST x => packRegByte 0xF#4 x 0x18#8
  | .addI x => packRegByte 0xF#4 x 0x1E#8
  | .ldF x => packRegByte 0xF#4 x 0x29#8
  | .ldB x => packRegByte 0xF#4 x 0x33#8
  | .ldAtI x => packRegByte 0xF#4 x 0x55#8
  | .ldVxAtI x => packRegByte 0xF#4 x 0x65#8
  | .nop0 w => w
  | .nop8 w => w
  | .nopE w => w
  | .nopF w => w

/-- The mask and the match of the row of spec/opcode_table.json an instruction stands for. A default row (the four
NOP rows) matches only where no other row of its family does. -/
def Instr.row : Instr → Word × Word
  | .cls => (0xF00F#16, 0x0000#16)
  | .ret => (0xF00F#16, 0x000E#16)
  | .jp _ => (0xF000#16, 0x1000#16)
  | .call _ => (0xF000#16, 0x2000#16)
  | .seImm _ _ => (0xF000#16, 0x3000#16)
  | .sneImm _ _ => (0xF000#16, 0x4000#16)
  | .seReg _ _ => (0xF000#16, 0x5000#16)
  | .ldImm _ _ => (0xF000#16, 0x6000#16)
  | .addImm _ _ => (0xF000#16, 0x7000#16)
  | .ldReg _ _ => (0xF00F#16, 0x8000#16)
  | .orReg _ _ => (0xF00F#16, 0x8001#16)
  | .andReg _ _ => (0xF00F#16, 0x8002#16)
  | .xorReg _ _ => (0xF00F#16, 0x8003#16)
  | .addReg _ _ => (0xF00F#16, 0x8004#16)
  | .sub _ _ => (0xF00F#16, 0x8005#16)
  | .shr _ _ => (0xF00F#16, 0x8006#16)
  | .subn _ _ => (0xF00F#16, 0x8007#16)
  | .shl _ _ => (0xF00F#16, 0x800E#16)
  | .sneReg _ _ => (0xF000#16, 0x9000#16)
  | .ldI _ => (0xF000#16, 0xA000#16)
  | .jpV0 _ => (0xF000#16, 0xB000#16)
  | .rnd _ _ => (0xF000#16, 0xC000#16)
  | .drw _ _ _ => (0xF000#16, 0xD000#16)
  | .skp _ => (0xF00F#16, 0xE00E#16)
  | .sknp _ => (0xF00F#16, 0xE001#16)
  | .ldVxDT _ => (0xF0FF#16, 0xF007#16)
  | .ldVxK _ => (0xF0FF#16, 0xF00A#16)
  | .ldDT _ => (0xF0FF#16, 0xF015#16)
  | .ldST _ => (0xF0FF#16, 0xF018#16)
  | .addI _ => (0xF0FF#16, 0xF01E#16)
  | .ldF _ => (0xF0FF#16, 0xF029#16)
  | .ldB _ => (0xF0FF#16, 0xF033#16)
  | .ldAtI _ => (0xF0FF#16, 0xF055#16)
  | .ldVxAtI _ => (0xF0FF#16, 0xF065#16)
  | .nop0 _ => (0xF000#16, 0x0000#16)
  | .nop8 _ => (0xF000#16, 0x8000#16)
  | .nopE _ => (0xF000#16, 0xE000#16)
  | .nopF _ => (0xF000#16, 0xF000#16)

/-- The instruction's row is one of the table's four default rows. -/
def Instr.isNop : Instr → Bool
  | .nop0 _ | .nop8 _ | .nopE _ | .nopF _ => true
  | .cls | .ret | .jp _ | .call _ | .seImm _ _ | .sneImm _ _ | .seReg _ _ | .ldImm _ _ | .addImm _ _
  | .ldReg _ _ | .orReg _ _ | .andReg _ _ | .xorReg _ _ | .addReg _ _ | .sub _ _ | .shr _ _ | .subn _ _
  | .shl _ _ | .sneReg _ _ | .ldI _ | .jpV0 _ | .rnd _ _ | .drw _ _ _ | .skp _ | .sknp _ | .ldVxDT _
  | .ldVxK _ | .ldDT _ | .ldST _ | .addI _ | .ldF _ | .ldB _ | .ldAtI _ | .ldVxAtI _ => false

/-- The bits of a word that take part in its decoding: those the table's encoding column does not mark `-` (R68, R69,
R77). -/
def Instr.usedBits : Instr → Word
  | .cls | .ret => 0xF00F#16
  | .seReg _ _ | .sneReg _ _ => 0xFFF0#16
  | .skp _ | .sknp _ => 0xFF0F#16
  | .jp _ | .call _ | .seImm _ _ | .sneImm _ _ | .ldImm _ _ | .addImm _ _ | .ldReg _ _ | .orReg _ _ | .andReg _ _
  | .xorReg _ _ | .addReg _ _ | .sub _ _ | .shr _ _ | .subn _ _ | .shl _ _ | .ldI _ | .jpV0 _ | .rnd _ _
  | .drw _ _ _ | .ldVxDT _ | .ldVxK _ | .ldDT _ | .ldST _ | .addI _ | .ldF _ | .ldB _ | .ldAtI _ | .ldVxAtI _
  | .nop0 _ | .nop8 _ | .nopE _ | .nopF _ => 0xFFFF#16

/-- The two bytes of an instruction as memory holds them (R45). -/
def encodeBytes (i : Instr) : List Byte := [highByte (encode i), lowByte (encode i)]

end Sys2Proof
end

