-- ==== Sys2Proof/Config.lean ====
section
/-! DEFINITION. The parameters of 00_scope.md R6 and the free values (R14, R38, R109, R156).

Fixed sizes stand here as constants; the parameters that have more than one value are the fields of
`Config`, which State carries so that every setting is modelled (log 1). -/

namespace Sys2Proof

/-- `MEM_SIZE`: addresses 0x000 to 0xFFF name a byte (R6, R7). -/
abbrev memSize : Nat := 4096

/-- `STACK_DEPTH` (R6, R28). -/
abbrev stackDepth : Nat := 16

/-- `FB_W` (R6). -/
abbrev fbWidth : Nat := 64

/-- `FB_H` (R6). -/
abbrev fbHeight : Nat := 32

/-- `NUM_KEYS` (R6). -/
abbrev numKeys : Nat := 16

/-- `LOAD_BASE`, the first PC and the base of the program image (R6, R167). -/
abbrev loadBase : Nat := 0x200

/-- The font is 16 glyphs of 5 bytes (R6, R39). -/
abbrev fontSize : Nat := 80

/-- `INIT_POLICY` (R38, D1). -/
inductive InitPolicy where
  | zero
  | unknown
  deriving DecidableEq, Repr

/-- `DRAW_EDGE` (R122, R123, R124, D6). -/
inductive DrawEdge where
  | fault
  | clip
  | wrap
  deriving DecidableEq, Repr

/-- `UNASSIGNED_POLICY` (R76, R94, R164, D15). -/
inductive UnassignedPolicy where
  | nop
  | fault
  deriving DecidableEq, Repr

/-- `VF_ALIAS` (R109, D8). -/
inductive VfAlias where
  | operandsFirst
  | any
  deriving DecidableEq, Repr

/-- `TIMER_MODE` (R151, R152, D18). -/
inductive TimerMode where
  | perCycle
  | external
  deriving DecidableEq, Repr

/-- The parameters of R6 that have more than one value. `CELL_WIDTH` is an argument of the read port
(log 12). -/
structure Config where
  initPolicy       : InitPolicy
  drawEdge         : DrawEdge
  unassignedPolicy : UnassignedPolicy
  vfAlias          : VfAlias
  timerMode        : TimerMode
  /-- `FONT_BASE`: the font lies whole in the reserved range 0x000 to 0x1FF (R52; DEDUCED, log 7). -/
  fontBase         : Fin (loadBase - fontSize + 1)
  /-- `FONT` (R39). -/
  font             : Vector Byte fontSize
  deriving DecidableEq, Repr

/-- The byte of draw number `k`: FREE (R14, R109, R156; log 2). -/
opaque Config.freeByte : Nat → Byte

/-- `V[i]` after reset number `e` under `INIT_POLICY = UNKNOWN`: FREE (R38; log 3). -/
opaque Config.unknownV : (e i : Nat) → Byte

/-- `I` after reset number `e` under `UNKNOWN`: FREE (R38; log 3). -/
opaque Config.unknownI : (e : Nat) → Word

/-- `S[k]` after reset number `e` under `UNKNOWN`: FREE (R38; log 3). -/
opaque Config.unknownStack : (e k : Nat) → Word

/-- `DT` after reset number `e` under `UNKNOWN`: FREE (R38; log 3). -/
opaque Config.unknownDT : (e : Nat) → Byte

/-- `ST` after reset number `e` under `UNKNOWN`: FREE (R38; log 3). -/
opaque Config.unknownST : (e : Nat) → Byte

/-- `FB[r][c]` after reset number `e` under `UNKNOWN`: FREE (R38; log 3). -/
opaque Config.unknownCell : (e r c : Nat) → Bool

/-- `M[a]` outside the font after reset number `e` under `UNKNOWN`: FREE (R38; log 3). -/
opaque Config.unknownMem : (e a : Nat) → Byte

end Sys2Proof
end

