-- ==== Sys2Proof/Machine/Defaults.lean ====
section
/-! DEFINITION. The default parameters of 00_scope.md R6 and the reset values of 10_state.md R38, R39. -/

namespace Sys2Proof.Machine

/-- The default `FONT`: glyphs 0 to F, five bytes each, top row first (R39). -/
def defaultFont : Vector Byte fontSize := #v[
  0xF0#8, 0x90#8, 0x90#8, 0x90#8, 0xF0#8,  0x20#8, 0x60#8, 0x20#8, 0x20#8, 0x70#8,
  0xF0#8, 0x10#8, 0xF0#8, 0x80#8, 0xF0#8,  0xF0#8, 0x10#8, 0xF0#8, 0x10#8, 0xF0#8,
  0x90#8, 0x90#8, 0xF0#8, 0x10#8, 0x10#8,  0xF0#8, 0x80#8, 0xF0#8, 0x10#8, 0xF0#8,
  0xF0#8, 0x80#8, 0xF0#8, 0x90#8, 0xF0#8,  0xF0#8, 0x10#8, 0x20#8, 0x40#8, 0x40#8,
  0xF0#8, 0x90#8, 0xF0#8, 0x90#8, 0xF0#8,  0xF0#8, 0x90#8, 0xF0#8, 0x10#8, 0xF0#8,
  0xF0#8, 0x90#8, 0xF0#8, 0x90#8, 0x90#8,  0xE0#8, 0x90#8, 0xE0#8, 0x90#8, 0xE0#8,
  0xF0#8, 0x80#8, 0x80#8, 0x80#8, 0xF0#8,  0xE0#8, 0x90#8, 0x90#8, 0x90#8, 0xE0#8,
  0xF0#8, 0x80#8, 0xF0#8, 0x80#8, 0xF0#8,  0xF0#8, 0x80#8, 0xF0#8, 0x80#8, 0x80#8]

/-- The value each parameter has where a claim names none (R6). -/
def defaultConfig : Config where
  initPolicy := .zero
  drawEdge := .fault
  unassignedPolicy := .nop
  vfAlias := .operandsFirst
  timerMode := .perCycle
  fontBase := ⟨0x050, by decide⟩
  font := defaultFont

/-- A field the source leaves open: 0 under `ZERO`, the free value under `UNKNOWN` (R38). -/
def powerUp {α : Type} (p : InitPolicy) (zero free : α) : α :=
  match p with
  | .zero => zero
  | .unknown => free

/-- `M[a]` after reset number `e`: the font, and everywhere else the open reset value (R38, R166). -/
def resetByte (c : Config) (e a : Nat) : Byte :=
  if h : c.fontBase.val ≤ a ∧ a < c.fontBase.val + fontSize then
    c.font[a - c.fontBase.val]
  else
    powerUp c.initPolicy 0#8 (Config.unknownMem e a)

/-- `V[0..15]` after reset number `e` (R38). -/
def resetV (c : Config) (e : Nat) : Vector Byte 16 :=
  powerUp c.initPolicy (Vector.replicate 16 0#8) (Vector.ofFn fun k => Config.unknownV e k.val)

/-- `S[0..15]` after reset number `e` (R38). -/
def resetStack (c : Config) (e : Nat) : Vector Word stackDepth :=
  powerUp c.initPolicy (Vector.replicate stackDepth 0#16) (Vector.ofFn fun k => Config.unknownStack e k.val)

/-- The clear framebuffer (R118). -/
def clearFramebuffer : Vector (Vector Bool fbWidth) fbHeight :=
  Vector.replicate fbHeight (Vector.replicate fbWidth false)

/-- `FB` after reset number `e` (R38). -/
def resetFramebuffer (c : Config) (e : Nat) : Vector (Vector Bool fbWidth) fbHeight :=
  powerUp c.initPolicy clearFramebuffer
    (Vector.ofFn fun r => Vector.ofFn fun k => Config.unknownCell e r.val k.val)

/-- The keypad before the host writes it: no key pressed (R38). -/
def noKeys : Vector Bool numKeys := Vector.replicate numKeys false

/-- The first PC (R167). -/
def resetPc : Word := BitVec.ofNat 16 loadBase

end Sys2Proof.Machine
end

