-- ==== Sys2Proof/Machine/State.lean ====
section
/-! DEFINITION. The state of the core, its faults, and reset (10_state.md; 60_exceptions.md R140;
70_reset_and_hazards.md R166). -/

namespace Sys2Proof.Machine

/-- The fault kinds of R140 with the info each records. Entering one is a NEXT state: the machine's step writes
`State.fault` (R142) and answers `next`, never `Host.Outcome.fault` (log 6). -/
inductive Fault where
  /-- Code 1: `CALL` with SP = 16. Safe: the spec requires it. -/
  | stackOverflow
  /-- Code 2: `RET` with SP = 0. Safe: the spec requires it. -/
  | stackUnderflow
  /-- Code 3: the first address at or above `MEM_SIZE` that fetch, `DRW`, `LD B`, `LD [I]` or `LD Vx, [I]` accesses.
  Safe: the spec requires it. -/
  | bounds (addr : Nat)
  /-- Code 4: `SKP` or `SKNP` with `V[x]` of 16 or more. Safe: the spec requires it. -/
  | keyRange (value : Byte)
  /-- Code 5: a set sprite bit outside the framebuffer, under `DRAW_EDGE = FAULT`. Safe: the spec requires it. -/
  | drawBounds (col row : Nat)
  /-- Code 6: an unassigned word under `UNASSIGNED_POLICY = FAULT`. Safe: the spec requires it. -/
  | unassigned (w : Word)
  deriving DecidableEq, Repr

/-- Why the model gives an instruction no meaning. -/
inductive Refusal where
  /-- Raised by an arm of `exec` whose instruction has no meaning yet; no arm does. Safe. -/
  | notModelled (mnemonic : String)
  deriving DecidableEq, Repr

/-- `(kind, info, P, W?)` (R37): the kind with its info, the address fetched from, and the fetched word, absent for
a fetch fault. -/
structure FaultRecord where
  kind : Fault
  p    : Word
  w    : Option Word
  deriving DecidableEq, Repr

/-- Memory: the cells that differ from what an unlisted address reads as, addresses rising (R31; log 4). -/
abbrev Memory := List Host.Cell

/-- The framebuffer, row by row (R32). -/
abbrev Framebuffer := Vector (Vector Bool fbWidth) fbHeight

/-- Everything the spec gives the machine (R40), the parameters it runs under (log 1), and the model's two counters
of free values (log 2, log 3). -/
structure State where
  /-- The parameters of R6; no step writes them (log 1). -/
  cfg   : Config
  /-- V0 to VF (R20, R21). -/
  v     : Vector Byte 16
  /-- I (R23). -/
  i     : Word
  /-- PC (R24). -/
  pc    : Word
  /-- SP, the number of live stack entries (R28). -/
  sp    : Fin (stackDepth + 1)
  /-- S[0] to S[15] (R28). -/
  stack : Vector Word stackDepth
  /-- DT (R30). -/
  dt    : Byte
  /-- ST (R30). -/
  st    : Byte
  /-- M (R31). -/
  mem   : Memory
  /-- FB (R32, R33). -/
  fb    : Framebuffer
  /-- KEY (R34). -/
  keys  : Vector Bool numKeys
  /-- W, latched by the fetch for one cycle; none between cycles (R36; log 5). -/
  w     : Option Word
  /-- FAULT; `none` is NONE (R37). -/
  fault : Option FaultRecord
  /-- The number of draws taken; the model's own (log 2). -/
  draws : Nat
  /-- The number of resets before this one; the model's own (log 3). -/
  epoch : Nat
  deriving DecidableEq, Repr

/-- The construction sequence of R166 under given parameters, as reset number `e`, with `d` draws taken before. -/
def State.construct (c : Config) (e d : Nat) : State where
  cfg := c
  v := resetV c e
  i := powerUp c.initPolicy 0#16 (Config.unknownI e)
  pc := resetPc
  sp := 0
  stack := resetStack c e
  dt := powerUp c.initPolicy 0#8 (Config.unknownDT e)
  st := powerUp c.initPolicy 0#8 (Config.unknownST e)
  mem := []
  fb := resetFramebuffer c e
  keys := noKeys
  w := none
  fault := none
  draws := d
  epoch := e

/-- The machine right after its first reset, under the default parameters (R38, R166). -/
def State.reset : State := State.construct defaultConfig 0 0

end Sys2Proof.Machine
end

