-- ==== Sys2Proof/Machine/Ops.lean ====
section
/-! DEFINITION. The named operations over registers, memory, stack, framebuffer and timers, the fetch, and the one
operation that enters a fault. No operation returns from a fault: none exists (60_exceptions.md R145). -/

namespace Sys2Proof.Machine

/-! ### Memory (20_memory.md) -/

/-- The byte at an address, given what an unlisted address reads as. -/
def Memory.read (dflt : Nat → Byte) : Memory → Nat → Byte
  | [], a => dflt a
  | (b, u) :: m, a => if a = b then u else Memory.read dflt m a

/-- The cells without those of one address. -/
def Memory.erase : Memory → Nat → Memory
  | [], _ => []
  | (b, u) :: m, a => if b = a then Memory.erase m a else (b, u) :: Memory.erase m a

/-- A cell put before the first cell of a higher address. -/
def Memory.insert : Memory → Nat → Byte → Memory
  | [], a, v => [(a, v)]
  | (b, u) :: m, a, v => if a < b then (a, v) :: (b, u) :: m else (b, u) :: Memory.insert m a v

/-- Store one byte. A cell equal to what its address reads as unlisted is not kept (log 4). -/
def Memory.write (dflt : Nat → Byte) (m : Memory) (a : Nat) (v : Byte) : Memory :=
  if v = dflt a then Memory.erase m a else Memory.insert (Memory.erase m a) a v

/-- The canonical form: addresses strictly rising and inside memory, no cell equal to what its address reads as
unlisted (log 4). -/
abbrev Memory.wf (dflt : Nat → Byte) (m : Memory) : Prop :=
  m.Pairwise (fun c d => c.1 < d.1) ∧ ∀ c ∈ m, c.1 < memSize ∧ c.2 ≠ dflt c.1

/-- What an unlisted address of this state reads as: its reset contents (R38; log 4). -/
def State.dflt (s : State) : Nat → Byte := resetByte s.cfg s.epoch

/-- `M[a]` (R31). -/
def State.byteAt (s : State) (a : Nat) : Byte := Memory.read s.dflt s.mem a

/-- `M[a] <- v`. -/
def State.setByte (s : State) (a : Nat) (v : Byte) : State :=
  { s with mem := Memory.write s.dflt s.mem a v }

/-- `MemRead(a, 1)` (R12). -/
def State.readByte (s : State) (a : Nat) : Except Fault Byte :=
  if a < memSize then .ok (s.byteAt a) else .error (.bounds a)

/-- `MemWrite(a, 1, v)` (R12). -/
def State.writeByte (s : State) (a : Nat) (v : Byte) : Except Fault State :=
  if a < memSize then .ok (s.setByte a v) else .error (.bounds a)

/-- `MemWrite` of consecutive bytes, lowest address first; the first address outside memory faults (R51, R137). -/
def State.writeBytes : (s : State) → (a : Nat) → List Byte → Except Fault State
  | s, _, [] => .ok s
  | s, a, v :: vs =>
    match s.writeByte a v with
    | .ok t => t.writeBytes (a + 1) vs
    | .error k => .error k

/-! ### Registers (10_state.md) -/

/-- `V[r]` (R11, R20). -/
def State.reg (s : State) (r : Reg) : Byte := s.v[r.toNat]'(r.isLt)

/-- `V[r] <- b` (R11, R20). -/
def State.setReg (s : State) (r : Reg) (b : Byte) : State :=
  { s with v := s.v.set r.toNat b r.isLt }

/-! ### Program counter (R24, R25) -/

/-- `PC <- a`. -/
def State.jumpTo (s : State) (a : Word) : State := { s with pc := a }

/-- `Skip()`: `PC <- PC + 2` (R88). -/
def State.skip (s : State) : State := s.jumpTo (s.pc + 2#16)

/-- A conditional skip (R88). -/
def State.skipIf (s : State) (b : Bool) : State := if b then s.skip else s

/-- `PC <- PC - 2`, back to the instruction itself (R131). -/
def State.rewind (s : State) : State := s.jumpTo (s.pc - 2#16)

/-! ### Call stack (R28, R29) -/

/-- Store then increment; overflow at SP = 16 (R29). -/
def State.push (s : State) (a : Word) : Except Fault State :=
  if h : s.sp.val < stackDepth then
    .ok { s with stack := s.stack.set s.sp.val a h, sp := ⟨s.sp.val + 1, by omega⟩ }
  else .error .stackOverflow

/-- Decrement then load; underflow at SP = 0. The entry is not cleared (R29, R85). -/
def State.pop (s : State) : Except Fault (Word × State) :=
  if h : 0 < s.sp.val then
    .ok (s.stack[s.sp.val - 1]'(by have := s.sp.isLt; omega), { s with sp := ⟨s.sp.val - 1, by omega⟩ })
  else .error .stackUnderflow

/-! ### Framebuffer (R32, R118, R126) -/

/-- `FB[r][c]`. -/
def Framebuffer.get (fb : Framebuffer) (r : Fin fbHeight) (c : Fin fbWidth) : Bool := fb[r.val][c.val]

/-- `FB[r][c] <- FB[r][c] XOR 1`. -/
def Framebuffer.flip (fb : Framebuffer) (r : Fin fbHeight) (c : Fin fbWidth) : Framebuffer :=
  fb.set r.val (fb[r.val].set c.val (!fb[r.val][c.val]))

/-- `FB[r][c]` of a state. -/
def State.cell (s : State) (r : Fin fbHeight) (c : Fin fbWidth) : Bool := Framebuffer.get s.fb r c

/-! ### Draws (R14, R156; log 2) -/

/-- `RandByte()`: the next free byte. -/
def State.draw (s : State) : Byte × State :=
  (Config.freeByte s.draws, { s with draws := s.draws + 1 })

/-! ### Timers (R151) -/

/-- Down by one while nonzero. -/
def countDown (b : Byte) : Byte := if 0 < b.toNat then BitVec.ofNat 8 (b.toNat - 1) else b

/-- `TimerTick()` (R151). -/
def State.timerTick (s : State) : State := { s with dt := countDown s.dt, st := countDown s.st }

/-! ### Faults (60_exceptions.md) -/

/-- The cause codes of R140; 0 is NONE. -/
def Fault.code : Fault → Nat
  | .stackOverflow => 1
  | .stackUnderflow => 2
  | .bounds _ => 3
  | .keyRange _ => 4
  | .drawBounds _ _ => 5
  | .unassigned _ => 6

/-- The code of a fault record field (R140). -/
def faultCode : Option FaultRecord → Nat
  | none => 0
  | some r => r.kind.code

/-- Fault entry (R142): PC holds the address fetched from, and `FAULT <- (kind, info, P, W?)`. The state given is one
none of the cycle's other writes has reached, so nothing else is to be undone. -/
def State.enterFault (s : State) (k : Fault) (p : Word) (w : Option Word) : State :=
  { s with pc := p, fault := some ⟨k, p, w⟩ }

/-- Fault entry from an instruction: the fetch has set `PC = P + 2` and latched `W` (R24, R36, R142). -/
def State.takeFault (s : State) (k : Fault) : State := s.enterFault k (s.pc - 2#16) s.w

/-- The outcome of an instruction that may fault: its effect whole, or fault entry from the state it began in
(R13, R137, R142; log 6). -/
def settle (s : State) : Except Fault State → Host.Outcome State Fault Refusal
  | .ok t => .next t
  | .error k => .next (s.takeFault k)

/-! ### The cycle (30_encoding.md R70) -/

/-- The two reads of the fetch, high byte first (R45, R70, R146). -/
def State.fetch (s : State) : Except Fault Word :=
  match s.readByte s.pc.toNat with
  | .error k => .error k
  | .ok hi =>
    match s.readByte (s.pc.toNat + 1) with
    | .error k => .error k
    | .ok lo => .ok (hi ++ lo)

/-- `W` is latched and `PC <- P + 2` (R36, R70). -/
def State.latch (s : State) (w : Word) : State := { s with w := some w, pc := s.pc + 2#16 }

/-- The machine is halted by a recorded fault (R144). -/
def State.halted (s : State) : Bool := s.fault.isSome

/-- The end of a cycle: `W`'s lifetime is over (log 5), and a cycle that completed without a fault ticks the timers
under `TIMER_MODE = PER_CYCLE` (R70, R142, R151, R152). -/
def State.endCycle (s : State) : State :=
  let t := { s with w := none }
  match s.cfg.timerMode with
  | .perCycle => if s.halted then t else t.timerTick
  | .external => t

end Sys2Proof.Machine
end

