-- ==== Sys2Proof/Machine/Operands.lean ====
section
/-! DEFINITION. Operand forms: how an instruction's fields, registers and I become values and addresses. -/

namespace Sys2Proof.Machine

/-- `zext_16(nnn)` (R10, R65). -/
def zext16 (nnn : Addr12) : Word := BitVec.ofNat 16 nnn.toNat

/-- The effective address `I + k`, an exact sum (R51). -/
def State.indexAddr (s : State) (k : Nat) : Nat := s.i.toNat + k

/-- `nnn + V[0]`, an exact sum of at most 0x10FE (R93). -/
def State.offsetTarget (s : State) (nnn : Addr12) : Word := BitVec.ofNat 16 (nnn.toNat + (s.reg v0).toNat)

/-- `FONT_BASE + 5 * V[x]`, not masked (R113). -/
def State.glyphAddr (s : State) (x : Reg) : Word :=
  BitVec.ofNat 16 (s.cfg.fontBase.val + 5 * (s.reg x).toNat)

/-- `KeyIndex(x)` (R128). -/
def State.keyIndex (s : State) (x : Reg) : Except Fault (Fin numKeys) :=
  if h : (s.reg x).toNat < numKeys then .ok ⟨(s.reg x).toNat, h⟩ else .error (.keyRange (s.reg x))

/-- `KEY[k]` (R34). -/
def State.key (s : State) (k : Fin numKeys) : Bool := s.keys[k.val]

/-- The lowest pressed key (R131). -/
def State.firstKey (s : State) : Option (Fin numKeys) := (List.finRange numKeys).find? s.key

/-- The origin column `V[x] mod 64` (R120). -/
def State.originCol (s : State) (x : Reg) : Nat := (s.reg x).toNat % fbWidth

/-- The origin row `V[y] mod 32` (R120). -/
def State.originRow (s : State) (y : Reg) : Nat := (s.reg y).toNat % fbHeight

/-- `V[0], …, V[x]` in rising order (R135). -/
def State.regsUpTo (s : State) (x : Reg) : List Byte :=
  (List.range (x.toNat + 1)).map fun k => s.reg (BitVec.ofNat 4 k)

/-- The hundreds, tens and units of a byte, most significant first (R134). -/
def bcdDigits (b : Byte) : List Byte :=
  [BitVec.ofNat 8 (b.toNat / 100), BitVec.ofNat 8 (b.toNat / 10 % 10), BitVec.ofNat 8 (b.toNat % 10)]

end Sys2Proof.Machine
end

