-- ==== Sys2Proof/Machine/Control.lean ====
section
/-! DEFINITION. Control flow: RET, JP, CALL, the four skips, JP V0 and NOP (40_control.md). When an operation runs,
`PC` already holds `P + 2` (R24). -/

namespace Sys2Proof.Machine

/-- The outcome type of a meaning. -/
abbrev Result := Host.Outcome State Fault Refusal

/-- RET (R85). -/
def execRet (s : State) : Result :=
  settle s (match s.pop with
    | .ok (a, t) => .ok (t.jumpTo a)
    | .error k => .error k)

/-- JP nnn (R86). -/
def execJp (nnn : Addr12) (s : State) : Result := .next (s.jumpTo (zext16 nnn))

/-- CALL nnn (R87). -/
def execCall (nnn : Addr12) (s : State) : Result :=
  settle s (match s.push s.pc with
    | .ok t => .ok (t.jumpTo (zext16 nnn))
    | .error k => .error k)

/-- SE Vx, kk (R89). -/
def execSeImm (x : Reg) (kk : Byte) (s : State) : Result := .next (s.skipIf (s.reg x == kk))

/-- SNE Vx, kk (R90). -/
def execSneImm (x : Reg) (kk : Byte) (s : State) : Result := .next (s.skipIf (s.reg x != kk))

/-- SE Vx, Vy (R91). -/
def execSeReg (x y : Reg) (s : State) : Result := .next (s.skipIf (s.reg x == s.reg y))

/-- SNE Vx, Vy (R92). -/
def execSneReg (x y : Reg) (s : State) : Result := .next (s.skipIf (s.reg x != s.reg y))

/-- JP V0, nnn (R93). -/
def execJpV0 (nnn : Addr12) (s : State) : Result := .next (s.jumpTo (s.offsetTarget nnn))

/-- An unassigned word: nothing, or `UnassignedFault(W)` (R76, R94, R164). -/
def execUnassigned (w : Word) (s : State) : Result :=
  settle s (match s.cfg.unassignedPolicy with
    | .nop => .ok s
    | .fault => .error (.unassigned w))

/-- NOP of family 0 (R72, R94). -/
def execNop0 (w : Word) (s : State) : Result := execUnassigned w s

/-- NOP of family 8 (R73, R94). -/
def execNop8 (w : Word) (s : State) : Result := execUnassigned w s

/-- NOP of family E (R74, R94). -/
def execNopE (w : Word) (s : State) : Result := execUnassigned w s

/-- NOP of family F (R75, R94). -/
def execNopF (w : Word) (s : State) : Result := execUnassigned w s

end Sys2Proof.Machine
end

