-- ==== Sys2Proof/Machine/Flags.lean ====
section
/-! DEFINITION. The flag values that go into VF, the exact results that go with them, and the one operation that
writes a flag and a destination (10_state.md R21, R27; 41_alu.md R102 to R109). -/

namespace Sys2Proof.Machine

/-- A flag as VF holds it: 1 or 0. -/
def flagByte (b : Bool) : Byte := if b then 1#8 else 0#8

/-- Carry: the exact sum exceeds 255 (R102). -/
def carry (a b : Byte) : Bool := decide (255 < a.toNat + b.toNat)

/-- Not-borrow: the minuend is strictly greater (R103, R105). -/
def notBorrow (minuend subtrahend : Byte) : Bool := decide (subtrahend.toNat < minuend.toNat)

/-- The bit a right shift moves out: bit 0 (R104). -/
def outRight (a : Byte) : Bool := decide (a.toNat % 2 = 1)

/-- The bit a left shift moves out: bit 7 (R106). -/
def outLeft (a : Byte) : Bool := decide (a.toNat / 128 = 1)

/-- `(a + b) mod 256` (R97, R102). -/
def sum8 (a b : Byte) : Byte := BitVec.ofNat 8 (a.toNat + b.toNat)

/-- `(a - b) mod 256` (R103, R105). -/
def diff8 (a b : Byte) : Byte := BitVec.ofInt 8 ((a.toNat : Int) - (b.toNat : Int))

/-- `a div 2` (R104). -/
def half (a : Byte) : Byte := BitVec.ofNat 8 (a.toNat / 2)

/-- `(a * 2) mod 256` (R106). -/
def double (a : Byte) : Byte := BitVec.ofNat 8 (a.toNat * 2)

/-- `V[15] <- flag`, then `V[x] <- result` (R15, R102 to R106). -/
def State.setFlagThenReg (s : State) (x : Reg) (flag : Bool) (result : Byte) : State :=
  (s.setReg vF (flagByte flag)).setReg x result

/-- The `VF_ALIAS = ANY` outcome: VF and `V[x]` hold draws, one for each register written (R109; log 8). -/
def State.setFlagAndRegFree (s : State) (x : Reg) : State :=
  let d := s.draw
  let t := d.2.setReg vF d.1
  if x = vF then t
  else
    let e := t.draw
    e.2.setReg x e.1

/-- The flag and the destination of an instruction that has VF as an operand or the destination (`aliased`), or not
(R109). -/
def State.writeFlagged (s : State) (x : Reg) (aliased : Bool) (flag : Bool) (result : Byte) : State :=
  match s.cfg.vfAlias with
  | .operandsFirst => s.setFlagThenReg x flag result
  | .any => if aliased then s.setFlagAndRegFree x else s.setFlagThenReg x flag result

end Sys2Proof.Machine
end

