-- ==== Sys2Proof/Machine/Alu.lean ====
section
/-! DEFINITION. The ALU: loads, adds, bitwise operations, subtracts, shifts and RND (41_alu.md). Operands are read
before anything is written (R15). -/

namespace Sys2Proof.Machine

/-- LD Vx, kk (R96). -/
def execLdImm (x : Reg) (kk : Byte) (s : State) : Result := .next (s.setReg x kk)

/-- ADD Vx, kk: no flag (R97). -/
def execAddImm (x : Reg) (kk : Byte) (s : State) : Result := .next (s.setReg x (sum8 (s.reg x) kk))

/-- LD Vx, Vy (R98). -/
def execLdReg (x y : Reg) (s : State) : Result := .next (s.setReg x (s.reg y))

/-- OR Vx, Vy (R99). -/
def execOr (x y : Reg) (s : State) : Result := .next (s.setReg x (s.reg x ||| s.reg y))

/-- AND Vx, Vy (R100). -/
def execAnd (x y : Reg) (s : State) : Result := .next (s.setReg x (s.reg x &&& s.reg y))

/-- XOR Vx, Vy (R101). -/
def execXor (x y : Reg) (s : State) : Result := .next (s.setReg x (s.reg x ^^^ s.reg y))

/-- ADD Vx, Vy: VF is the carry (R102). -/
def execAddReg (x y : Reg) (s : State) : Result :=
  .next (s.writeFlagged x (x == vF || y == vF) (carry (s.reg x) (s.reg y)) (sum8 (s.reg x) (s.reg y)))

/-- SUB Vx, Vy: `Vx - Vy`, VF is the not-borrow (R103). -/
def execSub (x y : Reg) (s : State) : Result :=
  .next (s.writeFlagged x (x == vF || y == vF) (notBorrow (s.reg x) (s.reg y)) (diff8 (s.reg x) (s.reg y)))

/-- SHR Vx: `y` is ignored, VF is the bit shifted out (R104). -/
def execShr (x _y : Reg) (s : State) : Result :=
  .next (s.writeFlagged x (x == vF) (outRight (s.reg x)) (half (s.reg x)))

/-- SUBN Vx, Vy: `Vy - Vx`, VF is the not-borrow (R105). -/
def execSubn (x y : Reg) (s : State) : Result :=
  .next (s.writeFlagged x (x == vF || y == vF) (notBorrow (s.reg y) (s.reg x)) (diff8 (s.reg y) (s.reg x)))

/-- SHL Vx: `y` is ignored, VF is the bit shifted out (R106). -/
def execShl (x _y : Reg) (s : State) : Result :=
  .next (s.writeFlagged x (x == vF) (outLeft (s.reg x)) (double (s.reg x)))

/-- RND Vx, kk: one fresh draw AND kk (R107). -/
def execRnd (x : Reg) (kk : Byte) (s : State) : Result :=
  .next (s.draw.2.setReg x (s.draw.1 &&& kk))

end Sys2Proof.Machine
end

