-- ==== Sys2Proof/Machine/Display.lean ====
section
/-! DEFINITION. The framebuffer controller: CLS and DRW (43_display.md). -/

namespace Sys2Proof.Machine

/-- CLS (R118). -/
def execCls (s : State) : Result := .next { s with fb := clearFramebuffer }

/-- `Place(ry, cx)`: the cell a set sprite bit lands on, `none` where it is dropped, or the edge fault (R122, R123,
R124). -/
def place (edge : DrawEdge) (ry cx : Nat) : Except Fault (Option (Fin fbHeight × Fin fbWidth)) :=
  match edge with
  | .fault =>
    if h : ry < fbHeight ∧ cx < fbWidth then .ok (some (⟨ry, h.1⟩, ⟨cx, h.2⟩)) else .error (.drawBounds cx ry)
  | .clip =>
    if h : ry < fbHeight ∧ cx < fbWidth then .ok (some (⟨ry, h.1⟩, ⟨cx, h.2⟩)) else .ok none
  | .wrap =>
    .ok (some (⟨ry % fbHeight, Nat.mod_lt _ (by decide)⟩, ⟨cx % fbWidth, Nat.mod_lt _ (by decide)⟩))

/-- What a draw in progress has changed: the cells, and whether a collision has been seen (R121). -/
structure Canvas where
  fb        : Framebuffer
  collision : Bool
  deriving DecidableEq, Repr

/-- XOR one set bit onto its cell; the collision stays once set (R119, R121). -/
def Canvas.plot (d : Canvas) (cell : Option (Fin fbHeight × Fin fbWidth)) : Canvas :=
  match cell with
  | none => d
  | some (r, c) => ⟨Framebuffer.flip d.fb r c, d.collision || Framebuffer.get d.fb r c⟩

/-- Bit `7 - c` of a sprite byte: the most significant bit is the leftmost pixel (R119, D28). -/
def spriteBit (byte : Byte) (c : Nat) : Bool := byte.getLsbD (7 - c)

/-- The given columns of one sprite row, in order (R119). -/
def drawRow (edge : DrawEdge) (ry xo : Nat) (byte : Byte) : List Nat → Canvas → Except Fault Canvas
  | [], d => .ok d
  | c :: cs, d =>
    if spriteBit byte c then
      match place edge ry (xo + c) with
      | .ok cell => drawRow edge ry xo byte cs (d.plot cell)
      | .error k => .error k
    else drawRow edge ry xo byte cs d

/-- The given rows of the sprite, in order: row `r`'s byte is read before its bits are placed (R119, R147). -/
def drawRows (s : State) (xo yo : Nat) : List Nat → Canvas → Except Fault Canvas
  | [], d => .ok d
  | r :: rs, d =>
    match s.readByte (s.indexAddr r) with
    | .ok byte =>
      match drawRow s.cfg.drawEdge (yo + r) xo byte (List.range 8) d with
      | .ok e => drawRows s xo yo rs e
      | .error k => .error k
    | .error k => .error k

/-- DRW Vx, Vy, n (R119): the origin is read before VF is reset, and VF ends as the collision flag (R121). -/
def execDrw (x y : Reg) (n : Nibble) (s : State) : Result :=
  settle s (match drawRows s (s.originCol x) (s.originRow y) (List.range n.toNat) ⟨s.fb, false⟩ with
    | .ok d => .ok { s.setReg vF (flagByte d.collision) with fb := d.fb }
    | .error k => .error k)

end Sys2Proof.Machine
end

