-- ==== Sys2Proof/Machine/IndexTimer.lean ====
section
/-! DEFINITION. The index register and timer instructions (42_index_timer.md). -/

namespace Sys2Proof.Machine

/-- LD I, nnn (R111). -/
def execLdI (nnn : Addr12) (s : State) : Result := .next { s with i := zext16 nnn }

/-- ADD I, Vx: `mod 2^16`, no flag (R112). -/
def execAddI (x : Reg) (s : State) : Result :=
  .next { s with i := BitVec.ofNat 16 (s.i.toNat + (s.reg x).toNat) }

/-- LD F, Vx (R113). -/
def execLdF (x : Reg) (s : State) : Result := .next { s with i := s.glyphAddr x }

/-- LD Vx, DT: DT before this cycle's tick (R114). -/
def execLdVxDT (x : Reg) (s : State) : Result := .next (s.setReg x s.dt)

/-- LD DT, Vx (R115). -/
def execLdDT (x : Reg) (s : State) : Result := .next { s with dt := s.reg x }

/-- LD ST, Vx (R116). -/
def execLdST (x : Reg) (s : State) : Result := .next { s with st := s.reg x }

end Sys2Proof.Machine
end

