-- ==== Sys2Proof/Machine/Keypad.lean ====
section
/-! DEFINITION. The keypad instructions (44_keypad.md). They read levels, as the host last wrote them (R133). -/

namespace Sys2Proof.Machine

/-- SKP Vx (R129). -/
def execSkp (x : Reg) (s : State) : Result :=
  settle s (match s.keyIndex x with
    | .ok k => .ok (s.skipIf (s.key k))
    | .error e => .error e)

/-- SKNP Vx (R130). -/
def execSknp (x : Reg) (s : State) : Result :=
  settle s (match s.keyIndex x with
    | .ok k => .ok (s.skipIf (!s.key k))
    | .error e => .error e)

/-- LD Vx, K: the lowest pressed key, or back to the same instruction (R131). -/
def execLdVxK (x : Reg) (s : State) : Result :=
  match s.firstKey with
  | some k => .next (s.setReg x (BitVec.ofNat 8 k.val))
  | none => .next s.rewind

end Sys2Proof.Machine
end

