-- ==== Sys2Proof/Machine/MemoryBlock.lean ====
section
/-! DEFINITION. The memory-block instructions (45_memory_block.md). None changes I. -/

namespace Sys2Proof.Machine

/-- LD B, Vx (R134). -/
def execLdB (x : Reg) (s : State) : Result :=
  settle s (s.writeBytes (s.indexAddr 0) (bcdDigits (s.reg x)))

/-- LD [I], Vx (R135). -/
def execLdAtI (x : Reg) (s : State) : Result :=
  settle s (s.writeBytes (s.indexAddr 0) (s.regsUpTo x))

/-- `V[k] <- MemRead(I + k, 1)` for the given `k`, in order (R136). -/
def State.loadRegs : (s : State) → List Nat → Except Fault State
  | s, [] => .ok s
  | s, k :: ks =>
    match s.readByte (s.indexAddr k) with
    | .ok b => (s.setReg (BitVec.ofNat 4 k) b).loadRegs ks
    | .error e => .error e

/-- LD Vx, [I] (R136). -/
def execLdVxAtI (x : Reg) (s : State) : Result :=
  settle s (s.loadRegs (List.range (x.toNat + 1)))

end Sys2Proof.Machine
end

