-- ==== Sys2Proof/Machine/Step.lean ====
section
/-! DEFINITION. One `Cycle()` (30_encoding.md R70). -/

namespace Sys2Proof.Machine

/-- `Cycle()`: nothing while a fault is recorded (R144); else fetch, decode, execute and the end of the cycle (R70). A
fetch that faults enters the fault with no word (R142, R146). -/
def step (s : State) : Host.Outcome State Fault Refusal :=
  if s.halted then .next s
  else
    match s.fetch with
    | .error k => .next (s.enterFault k s.pc none)
    | .ok w =>
      match exec (decodeWord w) (s.latch w) with
      | .next t => .next t.endCycle
      | .fault r => .fault r
      | .refused r => .refused r

/-- The state with the two bytes of an instruction word at PC and PC + 1, where the next cycle fetches (R45, R70; log
9). Only bytes inside memory are written (log 15). -/
def State.withFetchWord (s : State) (nbits w : Nat) : State :=
  let word : Word := BitVec.ofNat 16 (w % 2 ^ nbits)
  if s.pc.toNat + 1 < memSize then
    (s.setByte s.pc.toNat (highByte word)).setByte (s.pc.toNat + 1) (lowByte word)
  else s

end Sys2Proof.Machine
end

