-- ==== Sys2Proof/Machine/Ports.lean ====
section
/-! DEFINITION. The host's ports, each used between cycles (20_memory.md R61, R62; 60_exceptions.md R152 to R159;
log 9). -/

namespace Sys2Proof.Machine

/-- Why a load fails. An unreadable image is the host's own failure and never reaches the core (R62). -/
inductive LoadError where
  /-- The image is longer than `MEM_SIZE - LOAD_BASE` (R61). -/
  | oversize
  deriving DecidableEq, Repr

/-- `Reset(FONT)` (R157, R166): construction again with the given font, under the parameters the machine has; draws
already taken are not taken again (log 10). -/
def State.hostReset (s : State) (font : Vector Byte fontSize) : State :=
  State.construct { s.cfg with font := font } (s.epoch + 1) s.draws

/-- The bytes of an image put at consecutive addresses from `a`. -/
def State.storeImage : (s : State) → (a : Nat) → List Byte → State
  | s, _, [] => s
  | s, a, b :: bs => (s.setByte a b).storeImage (a + 1) bs

/-- `LoadImage(bytes)` (R61, R62). -/
def State.loadImage (s : State) (bytes : List Byte) : Except LoadError State :=
  if bytes.length ≤ memSize - loadBase then .ok (s.storeImage loadBase bytes) else .error .oversize

/-- `SetKeys(k)` (R159). -/
def State.setKeys (s : State) (k : Vector Bool numKeys) : State := { s with keys := k }

/-- A cell as the read port presents it in `cellWidth` bits: 0 or all ones (R33, R158; log 12). -/
def cellScalar (cellWidth : Nat) (on : Bool) : BitVec cellWidth :=
  if on then BitVec.allOnes cellWidth else 0#cellWidth

/-- `ReadFramebuffer()`: all cells in row-major order (R158). -/
def State.readFramebuffer (s : State) (cellWidth : Nat) : List (BitVec cellWidth) :=
  (List.finRange fbHeight).flatMap fun r =>
    (List.finRange fbWidth).map fun c => cellScalar cellWidth (s.cell r c)

/-- `ReadTimers()` (R154). -/
def State.readTimers (s : State) : Byte × Byte := (s.dt, s.st)

/-- The `TimerTick()` port: only under `TIMER_MODE = EXTERNAL`, and nothing while a fault is recorded (R144, R152; log
11). -/
def State.hostTimerTick (s : State) : State :=
  match s.cfg.timerMode with
  | .external => if s.halted then s else s.timerTick
  | .perCycle => s

/-- The host's calls (R157). -/
inductive HostCall where
  | reset (font : Vector Byte fontSize)
  | loadImage (bytes : List Byte)
  | setKeys (k : Vector Bool numKeys)
  | cycle
  | readFramebuffer (cellWidth : Nat)
  | readTimers
  | readFault
  | timerTick
  deriving DecidableEq, Repr

/-- What the host gets back (R157). -/
inductive HostReply where
  /-- The call gives nothing back. -/
  | done
  /-- `LoadImage` succeeded, or `Cycle()` returned OK. -/
  | ok
  /-- `Cycle()` returned the fault record (R142, R144). -/
  | faulted (r : FaultRecord)
  | loadError (e : LoadError)
  /-- The cells, each the unsigned value of its scalar. -/
  | framebuffer (cells : List Nat)
  | timers (dt st : Byte)
  | faultRecord (r : Option FaultRecord)
  deriving DecidableEq, Repr

/-- What `Cycle()` returns in the state it leaves: OK, or the record (R70, R142, R144). -/
def State.cycleReply (s : State) : HostReply :=
  match s.fault with
  | none => .ok
  | some r => .faulted r

/-- One host call: the state after it and the reply (R157). -/
def serve (c : HostCall) (s : State) : Host.Outcome (State × HostReply) Fault Refusal :=
  match c with
  | .reset font => .next (s.hostReset font, .done)
  | .loadImage bytes =>
    match s.loadImage bytes with
    | .ok t => .next (t, .ok)
    | .error e => .next (s, .loadError e)
  | .setKeys k => .next (s.setKeys k, .done)
  | .cycle =>
    match step s with
    | .next t => .next (t, t.cycleReply)
    | .fault r => .fault r
    | .refused r => .refused r
  | .readFramebuffer width => .next (s, .framebuffer ((s.readFramebuffer width).map (·.toNat)))
  | .readTimers => .next (s, .timers s.readTimers.1 s.readTimers.2)
  | .readFault => .next (s, .faultRecord s.fault)
  | .timerTick => .next (s.hostTimerTick, .done)

end Sys2Proof.Machine
end

