-- ==== Sys2Proof/Safety.lean ====
section
/-! DEFINITION. The terms the claims are stated in: the invariant, what each instruction may write, store to and
raise (10_state.md R26, R42; 60_exceptions.md R141), and what a sprite covers (43_display.md). -/

namespace Sys2Proof.Machine

/-- What holds between cycles: memory is in its canonical form (log 4); PC is at most 0x10FE and every live return
address at most 0x1000 (R26); W is over (R36; log 5); a recorded fault names the PC it left (R142, R143). -/
structure State.Inv (s : State) : Prop where
  memory     : Memory.wf s.dflt s.mem
  pcBound    : s.pc.toNat ≤ 0x10FE
  stackBound : ∀ k : Fin stackDepth, k.val < s.sp.val → s.stack[k.val].toNat ≤ 0x1000
  noLatch    : s.w = none
  faultPc    : ∀ r, s.fault = some r → r.p = s.pc

/-- The registers an instruction may write, VF as a flag among them (R42). -/
def writesReg (i : Instr) (r : Reg) : Prop :=
  match i with
  | .ldImm x _ | .addImm x _ | .ldReg x _ | .orReg x _ | .andReg x _ | .xorReg x _ | .rnd x _ | .ldVxDT x
  | .ldVxK x => r = x
  | .addReg x _ | .sub x _ | .shr x _ | .subn x _ | .shl x _ => r = x ∨ r = vF
  | .drw _ _ _ => r = vF
  | .ldVxAtI x => r.toNat ≤ x.toNat
  | .cls | .ret | .jp _ | .call _ | .seImm _ _ | .sneImm _ _ | .seReg _ _ | .sneReg _ _ | .ldI _ | .jpV0 _
  | .skp _ | .sknp _ | .ldDT _ | .ldST _ | .addI _ | .ldF _ | .ldB _ | .ldAtI _
  | .nop0 _ | .nop8 _ | .nopE _ | .nopF _ => False

/-- The instruction may write I (R23, R42). -/
def writesIndex (i : Instr) : Prop :=
  match i with
  | .ldI _ | .addI _ | .ldF _ => True
  | .cls | .ret | .jp _ | .call _ | .seImm _ _ | .sneImm _ _ | .seReg _ _ | .ldImm _ _ | .addImm _ _ | .ldReg _ _
  | .orReg _ _ | .andReg _ _ | .xorReg _ _ | .addReg _ _ | .sub _ _ | .shr _ _ | .subn _ _ | .shl _ _
  | .sneReg _ _ | .jpV0 _ | .rnd _ _ | .drw _ _ _ | .skp _ | .sknp _ | .ldVxDT _ | .ldVxK _ | .ldDT _ | .ldST _
  | .ldB _ | .ldAtI _ | .ldVxAtI _ | .nop0 _ | .nop8 _ | .nopE _ | .nopF _ => False

/-- The operation may change PC after the fetch without faulting (R25, R42). -/
def writesPc (i : Instr) : Prop :=
  match i with
  | .ret | .jp _ | .call _ | .seImm _ _ | .sneImm _ _ | .seReg _ _ | .sneReg _ _ | .jpV0 _ | .skp _ | .sknp _
  | .ldVxK _ => True
  | .cls | .ldImm _ _ | .addImm _ _ | .ldReg _ _ | .orReg _ _ | .andReg _ _ | .xorReg _ _ | .addReg _ _ | .sub _ _
  | .shr _ _ | .subn _ _ | .shl _ _ | .ldI _ | .rnd _ _ | .drw _ _ _ | .ldVxDT _ | .ldDT _ | .ldST _ | .addI _
  | .ldF _ | .ldB _ | .ldAtI _ | .ldVxAtI _ | .nop0 _ | .nop8 _ | .nopE _ | .nopF _ => False

/-- The address is one of the bytes the instruction stores to: `I`, `I+1`, `I+2` for LD B, `I` to `I+x` for LD [I]
(R49). The addresses are computed by the operand function the meanings use. -/
def storesTo (i : Instr) (s : State) (a : Nat) : Prop :=
  match i with
  | .ldB _ => s.indexAddr 0 ≤ a ∧ a < s.indexAddr 3
  | .ldAtI x => s.indexAddr 0 ≤ a ∧ a ≤ s.indexAddr x.toNat
  | .cls | .ret | .jp _ | .call _ | .seImm _ _ | .sneImm _ _ | .seReg _ _ | .ldImm _ _ | .addImm _ _ | .ldReg _ _
  | .orReg _ _ | .andReg _ _ | .xorReg _ _ | .addReg _ _ | .sub _ _ | .shr _ _ | .subn _ _ | .shl _ _
  | .sneReg _ _ | .ldI _ | .jpV0 _ | .rnd _ _ | .drw _ _ _ | .skp _ | .sknp _ | .ldVxDT _ | .ldVxK _ | .ldDT _
  | .ldST _ | .addI _ | .ldF _ | .ldVxAtI _ | .nop0 _ | .nop8 _ | .nopE _ | .nopF _ => False

/-- The faults R141 lets an instruction raise in a state. -/
def mayRaise (i : Instr) (s : State) (k : Fault) : Prop :=
  match i with
  | .ret => s.sp.val = 0 ∧ k = .stackUnderflow
  | .call _ => s.sp.val = 16 ∧ k = .stackOverflow
  | .drw _ _ n =>
    (∃ j, j < n.toNat ∧ memSize ≤ s.indexAddr j ∧ k = .bounds (s.indexAddr j)) ∨
      (s.cfg.drawEdge = .fault ∧ ∃ col row, (fbWidth ≤ col ∨ fbHeight ≤ row) ∧ k = .drawBounds col row)
  | .skp x | .sknp x => 16 ≤ (s.reg x).toNat ∧ k = .keyRange (s.reg x)
  | .ldB _ => ∃ j, j ≤ 2 ∧ memSize ≤ s.indexAddr j ∧ k = .bounds (s.indexAddr j)
  | .ldAtI x | .ldVxAtI x =>
    ∃ j, j ≤ x.toNat ∧ memSize ≤ s.indexAddr j ∧ k = .bounds (s.indexAddr j)
  | .nop0 w | .nop8 w | .nopE w | .nopF w => s.cfg.unassignedPolicy = .fault ∧ k = .unassigned w
  | .cls | .jp _ | .seImm _ _ | .sneImm _ _ | .seReg _ _ | .ldImm _ _ | .addImm _ _ | .ldReg _ _ | .orReg _ _
  | .andReg _ _ | .xorReg _ _ | .addReg _ _ | .sub _ _ | .shr _ _ | .subn _ _ | .shl _ _ | .sneReg _ _ | .ldI _
  | .jpV0 _ | .rnd _ _ | .ldVxDT _ | .ldVxK _ | .ldDT _ | .ldST _ | .addI _ | .ldF _ => False

/-- Bit `7 - k` of the sprite's row `j` is set (R119). -/
def State.spriteSets (s : State) (j k : Nat) : Prop :=
  (s.byteAt (s.i.toNat + j)).getLsbD (7 - k) = true

/-- Row `ry`, column `cx` of a sprite falls on the cell `(r, c)`: taken modulo the size under WRAP, as it is
otherwise (R122 to R124). -/
def landsOn (edge : DrawEdge) (ry cx : Nat) (r : Fin fbHeight) (c : Fin fbWidth) : Prop :=
  match edge with
  | .wrap => r.val = ry % 32 ∧ c.val = cx % 64
  | .fault | .clip => r.val = ry ∧ c.val = cx

/-- Some set bit of the `n` sprite rows at I, drawn from the origin `(V[x] mod 64, V[y] mod 32)`, falls on the cell
(R119, R120). -/
def State.spriteCovers (s : State) (x y : Reg) (n : Nibble) (r : Fin fbHeight) (c : Fin fbWidth) : Prop :=
  ∃ j k, j < n.toNat ∧ k < 8 ∧ s.spriteSets j k ∧
    landsOn s.cfg.drawEdge ((s.reg y).toNat % 32 + j) ((s.reg x).toNat % 64 + k) r c

/-- Column `k` of sprite row `j` faults if its bit is set: it lies outside the framebuffer under `DRAW_EDGE = FAULT`
(R122). -/
def State.bitFaults (s : State) (x y : Reg) (j k : Nat) : Prop :=
  s.cfg.drawEdge = .fault ∧ s.spriteSets j k ∧
    (32 ≤ (s.reg y).toNat % 32 + j ∨ 64 ≤ (s.reg x).toNat % 64 + k)

/-- Row `j` of a sprite raises no fault: its byte is in memory and none of its columns faults (R119, R122). -/
def State.rowFits (s : State) (x y : Reg) (j : Nat) : Prop :=
  s.i.toNat + j < memSize ∧ ∀ k, k < 8 → ¬ s.bitFaults x y j k

end Sys2Proof.Machine
end

