-- ==== Sys2Proof/Certificates/Slice0/Obligations.lean ====
section
/-! DEFINITION. The statements for the provers. Each docstring names the rules of spec/ it formalises, and says where a
clause rests on an inference or a decision that the spec marks as its own, or on the model's choice (log <n>).

`exec i s` is stated for the state the operation begins in: PC already holds `P + 2` and W is latched (R24, R36). A
fault outcome is written out: PC back at `P`, FAULT recorded, nothing else changed (R142); that it is a next state of
the model, and not one of its stops, is log 6. -/

open Sys2Proof Sys2Proof.Machine

/-! ### Encoding -/

/-- Decoding the stored bytes of any well-formed instruction gives it back, with every operand at every value, and
consumes exactly its two bytes. Rests on R63, R64, R71 to R75 and R81; the canonical bits are log 14. -/
def Obligations.DecodeEncodeAgree : Prop :=
  ∀ (i : Instr) (rest : List Byte), i.wf = true →
    decodeWord (encode i) = i ∧ decode (encodeBytes i ++ rest) = .ok (i, rest)

/-- Every word matches the table row of the instruction it decodes to; and a word that matches a row other than the four
default rows decodes to an instruction of that row. Rests on R67 to R75 (the slots are marked general knowledge). -/
def Obligations.DecodeFollowsTheOpcodeTable : Prop :=
  (∀ w : Word, w &&& (decodeWord w).row.1 = (decodeWord w).row.2) ∧
  (∀ (w : Word) (i : Instr), i.isNop = false → w &&& i.row.1 = i.row.2 → (decodeWord w).row = i.row)

/-- Encoding a decoded word restores every bit that takes part in its decoding: no operand is read from other bits.
Rests on R64, R68, R69. -/
def Obligations.EncodeRestoresEveryUsedBit : Prop :=
  ∀ w : Word, encode (decodeWord w) &&& (decodeWord w).usedBits = w &&& (decodeWord w).usedBits

/-- The aliases of R77, which the spec marks as derived from R68, R69, R72 to R75: every 0x0nn0 is CLS and every 0x0nnE
RET; W[3:0] does not matter in families 5 and 9, nor W[7:4] in family E, nor y to SHR and SHL; families 1 to 4, 6, 7 and
A to D have no unassigned word. -/
def Obligations.DecodeIgnoresUnkeyedBits : Prop :=
  (∀ nn : Byte, decodeWord (0x0#4 ++ nn ++ 0x0#4) = .cls) ∧
  (∀ nn : Byte, decodeWord (0x0#4 ++ nn ++ 0xE#4) = .ret) ∧
  (∀ (x y : Reg) (n : Nibble), decodeWord (0x5#4 ++ x ++ y ++ n) = .seReg x y) ∧
  (∀ (x y : Reg) (n : Nibble), decodeWord (0x9#4 ++ x ++ y ++ n) = .sneReg x y) ∧
  (∀ (x : Reg) (n : Nibble), decodeWord (0xE#4 ++ x ++ n ++ 0xE#4) = .skp x) ∧
  (∀ (x : Reg) (n : Nibble), decodeWord (0xE#4 ++ x ++ n ++ 0x1#4) = .sknp x) ∧
  (∀ (x y z : Reg) (s : State), exec (decodeWord (0x8#4 ++ x ++ y ++ 0x6#4)) s =
    exec (decodeWord (0x8#4 ++ x ++ z ++ 0x6#4)) s) ∧
  (∀ (x y z : Reg) (s : State), exec (decodeWord (0x8#4 ++ x ++ y ++ 0xE#4)) s =
    exec (decodeWord (0x8#4 ++ x ++ z ++ 0xE#4)) s) ∧
  (∀ (f : BitVec 4) (rest : Addr12), f ∈ [0x1#4, 0x2#4, 0x3#4, 0x4#4, 0x6#4, 0x7#4, 0xA#4, 0xB#4, 0xC#4, 0xD#4] →
    (decodeWord (f ++ rest)).isNop = false)

/-- Words written out from the spec's encodings (R71 to R75 and the decode vectors V-E1 to V-E15 of
95_test_vectors.md). -/
def Obligations.DecodeOfSampleWords : Prop :=
  decodeWord 0x0000#16 = .cls ∧ decodeWord 0x00EE#16 = .ret ∧ decodeWord 0x0001#16 = .nop0 0x0001#16 ∧
  decodeWord 0x1234#16 = .jp 0x234#12 ∧ decodeWord 0x5121#16 = .seReg 1#4 2#4 ∧
  decodeWord 0x812F#16 = .nop8 0x812F#16 ∧ decodeWord 0x8196#16 = .shr 1#4 9#4 ∧
  decodeWord 0xA300#16 = .ldI 0x300#12 ∧ decodeWord 0xC10F#16 = .rnd 1#4 0x0F#8 ∧
  decodeWord 0xD015#16 = .drw 0#4 1#4 5#4 ∧ decodeWord 0xE10E#16 = .skp 1#4 ∧
  decodeWord 0xF129#16 = .ldF 1#4 ∧ decodeWord 0xF355#16 = .ldAtI 3#4 ∧ decodeWord 0xF12A#16 = .nopF 0xF12A#16

/-- Whatever a word decodes to is well-formed: a NOP row never takes an assigned word. Rests on R71 to R76. -/
def Obligations.DecodedInstructionsAreWellFormed : Prop :=
  ∀ w : Word, (decodeWord w).wf = true

/-! ### The cycle, faults and timers -/

/-- R70 with R45: nothing while a fault is recorded; else the two bytes at PC are read, high byte first, with
`BoundsFault(P)` or `BoundsFault(P + 1)` where they lie outside memory; else the cycle is the operation their word
decodes to, run with W latched and `PC = P + 2`, then the end of the cycle: W over (log 5) and, after an operation that
raised no fault under PER_CYCLE, one tick. What `Cycle()` returns to the host is OK where the cycle raised no fault
(R70), and the fault record where it raised one (R142). R142 and R144 are marked as decision D5; that the raised fault
is a next state is log 6, and that the call is a function of the state between cycles is log 9. -/
def Obligations.CycleFetchesDecodesAndExecutes : Prop :=
  ∀ s : State,
    (s.fault ≠ none → step s = .next s) ∧
    (s.fault = none → 4096 ≤ s.pc.toNat →
      step s = .next { s with fault := some ⟨.bounds s.pc.toNat, s.pc, none⟩ }) ∧
    (s.fault = none → s.pc.toNat = 4095 →
      step s = .next { s with fault := some ⟨.bounds 4096, s.pc, none⟩ }) ∧
    (∀ (hi lo : Byte) (i : Instr), s.fault = none → s.pc.toNat + 1 < 4096 →
      s.byteAt s.pc.toNat = hi → s.byteAt (s.pc.toNat + 1) = lo → decode [hi, lo] = .ok (i, []) →
      ∃ w : Word, w.toNat = hi.toNat * 256 + lo.toNat ∧ decodeWord w = i ∧
        (∀ t, exec i { s with w := some w, pc := s.pc + 2#16 } = .next t →
          (t.fault = none → t.cfg.timerMode = .perCycle →
            step s = .next { t with w := none, dt := countDown t.dt, st := countDown t.st }) ∧
          (t.fault ≠ none ∨ t.cfg.timerMode = .external → step s = .next { t with w := none }))) ∧
    (∀ t, s.fault = none → step s = .next t →
      (t.fault = none → serve .cycle s = .next (t, .ok)) ∧
      (∀ r, t.fault = some r → serve .cycle s = .next (t, .faulted r)))

/-- While a fault is recorded, `Cycle()` and the `TimerTick()` port change nothing, `Cycle()` returns the record again,
and no host call but Reset clears or changes the record. R144 (marked as decision D5). -/
def Obligations.HaltedMachineStaysHalted : Prop :=
  ∀ (s : State) (r : FaultRecord), s.fault = some r →
    step s = .next s ∧ serve .cycle s = .next (s, .faulted r) ∧ serve .timerTick s = .next (s, .done) ∧
    (∀ (c : HostCall) (t : State) (a : HostReply), (∀ font, c ≠ .reset font) → serve c s = .next (t, a) →
      t.fault = some r)

/-- Fault entry: a cycle that raises a fault leaves every field but FAULT as it was, and the record holds the address
fetched from and the fetched word, absent exactly for a fetch fault. R142, R143 (marked as decision D5 and derived);
`s.w = none` is the invariant of log 5. -/
def Obligations.FaultEntryKeepsAllButTheRecord : Prop :=
  ∀ (s t : State) (r : FaultRecord), s.fault = none → s.w = none → step s = .next t → t.fault = some r →
    t = { s with fault := some r } ∧ r.p = s.pc ∧
    (4096 ≤ s.pc.toNat + 1 → r.w = none) ∧
    (s.pc.toNat + 1 < 4096 →
      r.w = some (wordOfBytes (s.byteAt s.pc.toNat) (s.byteAt (s.pc.toNat + 1))))

/-- Which faults an operation can raise, and in which states: those of R141 (marked as derived), each with its info (for
DrawBoundsFault a column or row outside the framebuffer; which one is `DrwReportsTheFirstFault`); and every such fault
leaves all but PC and FAULT as the operation found them, PC back at the instruction (R142). -/
def Obligations.FaultsComeOnlyFromTheirOperations : Prop :=
  ∀ (i : Instr) (s t : State) (r : FaultRecord), s.fault = none → exec i s = .next t → t.fault = some r →
    mayRaise i s r.kind ∧ r.p = s.pc - 2#16 ∧ r.w = s.w ∧ t = { s with pc := s.pc - 2#16, fault := some r }

/-- No operation and no cycle stops the model: each answers a next state. Rests on R71 (decode is total), R78 and
R142; that a fault entry is a next state is log 6. -/
def Obligations.EveryCycleAnswersANextState : Prop :=
  (∀ (i : Instr) (s : State), ∃ t, exec i s = .next t) ∧ (∀ s : State, ∃ t, step s = .next t)

/-- R151: under PER_CYCLE a cycle whose operation raised no fault ends with one tick of both timers: each is one less
than the operation left it, and 0 stays 0; of the rest only W, whose lifetime is one cycle, may change. -/
def Obligations.TimersTickOncePerCompletedCycle : Prop :=
  ∀ (s u : State), s.fault = none → s.pc.toNat + 1 < 4096 → u.cfg.timerMode = .perCycle → u.fault = none →
    exec (decodeWord (wordOfBytes (s.byteAt s.pc.toNat) (s.byteAt (s.pc.toNat + 1))))
      (s.latch (wordOfBytes (s.byteAt s.pc.toNat) (s.byteAt (s.pc.toNat + 1)))) = .next u →
    ∃ t, step s = .next t ∧ t.dt.toNat = u.dt.toNat - 1 ∧ t.st.toNat = u.st.toNat - 1 ∧
      t = { u with w := t.w, dt := t.dt, st := t.st }

/-- A run of cycles that stores no delay timer and meets no fault lowers DT by the number of cycles, down to 0. R117
(marked as derived). -/
def Obligations.DelayTimerCountsCycles : Prop :=
  ∀ (k : Nat) (s t : State), s.cfg.timerMode = .perCycle →
    (∀ (j : Nat) (u : State) (w : Word) (x : Reg), j < k → Sys2Proof.core.run j s = .next u → u.fetch = .ok w →
      decodeWord w ≠ .ldDT x) →
    Sys2Proof.core.run k s = .next t → t.fault = none → t.dt.toNat = s.dt.toNat - k

/-! ### What each instruction leaves unchanged -/

/-- No instruction writes the keypad; only SKP, SKNP and LD Vx, K read it (any other gives the same effect whatever the
keys are); the host's SetKeys replaces all sixteen flags. R34, R159. That SetKeys acts in every state, one with a
recorded fault included, is the model's inference (log 17). -/
def Obligations.KeypadIsReadOnlyToInstructions : Prop :=
  ∀ (i : Instr) (s t : State) (k : Vector Bool numKeys), exec i s = .next t →
    t.keys = s.keys ∧
    ((∀ x, i ≠ .skp x ∧ i ≠ .sknp x ∧ i ≠ .ldVxK x) →
      exec i { s with keys := k } = .next { t with keys := k }) ∧
    serve (.setKeys k) s = .next ({ s with keys := k }, .done)

/-- The register frame of every instruction: a register is unchanged unless R42 lists it as written, VF as a flag
among them (R21, R22; R22 and R42 are marked as derived). -/
def Obligations.RegistersOutsideTheDestinationsAreKept : Prop :=
  ∀ (i : Instr) (s t : State) (r : Reg), exec i s = .next t → ¬ writesReg i r → t.reg r = s.reg r

/-- The memory frame of every instruction: a byte reads as before unless it is one the instruction stores to: `I` to
`I + 2` for LD B, `I` to `I + x` for LD [I], none for any other (R49, R50; R49 is marked as derived). -/
def Obligations.MemoryOutsideTheStoredBytesIsKept : Prop :=
  ∀ (i : Instr) (s t : State) (a : Nat), exec i s = .next t → ¬ storesTo i s a → t.byteAt a = s.byteAt a

/-- The frame of the rest of the state: I, stack, timers, framebuffer, W, and the model's parameters and counters are
unchanged except by the instructions R42 lists (R23, R28, R126; R42 and R126 are marked as derived; the parameters are
log 1, the draw counter log 2). RET leaves the entries; CALL changes only `S[SP]`. -/
def Obligations.SpecialStateIsKept : Prop :=
  ∀ (i : Instr) (s t : State), exec i s = .next t →
    (¬ writesIndex i → t.i = s.i) ∧
    ((∀ a, i ≠ .ret ∧ i ≠ .call a) → t.sp = s.sp) ∧
    ((∀ a, i ≠ .call a) → t.stack = s.stack) ∧
    (∀ k : Fin stackDepth, k.val ≠ s.sp.val → t.stack[k.val] = s.stack[k.val]) ∧
    ((∀ x, i ≠ .ldDT x) → t.dt = s.dt) ∧
    ((∀ x, i ≠ .ldST x) → t.st = s.st) ∧
    ((∀ x y n, i ≠ .cls ∧ i ≠ .drw x y n) → t.fb = s.fb) ∧
    ((∀ x k, i ≠ .rnd x k) → s.cfg.vfAlias = .operandsFirst → t.draws = s.draws) ∧
    t.w = s.w ∧ t.cfg = s.cfg ∧ t.epoch = s.epoch

/-- Only the operations R25 lists change PC after the fetch (R25 is marked as decision D13, R42 as derived); a fault
takes PC back to the instruction (R142). -/
def Obligations.PcIsKeptByOtherOperations : Prop :=
  ∀ (i : Instr) (s t : State), s.fault = none → exec i s = .next t →
    (t.fault = none → ¬ writesPc i → t.pc = s.pc) ∧ (t.fault ≠ none → t.pc = s.pc - 2#16)

/-! ### Control flow -/

/-- R85: RET pops the top entry into PC and leaves it in the stack; with an empty stack it raises
StackFault(underflow). The encoding is marked general knowledge. -/
def Obligations.RetPopsTheReturnAddress : Prop :=
  (∀ nn : Byte, decodeWord (0x0#4 ++ nn ++ 0xE#4) = .ret) ∧
  ∀ s : State,
    (0 < s.sp.val → ∃ t, exec .ret s = .next t ∧ t.sp.val = s.sp.val - 1 ∧
      (∀ k : Fin stackDepth, k.val = s.sp.val - 1 → t.pc = s.stack[k.val]) ∧
      t = { s with pc := t.pc, sp := t.sp }) ∧
    (s.sp.val = 0 → exec .ret s =
      .next { s with pc := s.pc - 2#16, fault := some ⟨.stackUnderflow, s.pc - 2#16, s.w⟩ })

/-- R86: JP sets PC to nnn and changes nothing else. The spec marks the encoding as general knowledge (log 16). -/
def Obligations.JpSetsThePc : Prop :=
  ∀ (nnn : Addr12) (s : State), decodeWord (0x1#4 ++ nnn) = .jp nnn ∧
    ∃ p : Word, p.toNat = nnn.toNat ∧ exec (.jp nnn) s = .next { s with pc := p }

/-- JP V0 sets PC to the exact sum nnn + V[0], with no mask. R93 (marked as decision D23). -/
def Obligations.JpV0AddsV0 : Prop :=
  ∀ (nnn : Addr12) (s : State), decodeWord (0xB#4 ++ nnn) = .jpV0 nnn ∧
    ∃ p : Word, p.toNat = nnn.toNat + (s.reg 0#4).toNat ∧ exec (.jpV0 nnn) s = .next { s with pc := p }

/-- CALL stores the return address at `S[SP]`, then raises SP and sets PC; with 16 live entries it raises
StackFault(overflow). R87 (marked as decisions D2, D3). -/
def Obligations.CallPushesTheReturnAddress : Prop :=
  ∀ (nnn : Addr12) (s : State), decodeWord (0x2#4 ++ nnn) = .call nnn ∧
    (s.sp.val < 16 → ∃ t, exec (.call nnn) s = .next t ∧ t.sp.val = s.sp.val + 1 ∧ t.pc.toNat = nnn.toNat ∧
      (∀ k : Fin stackDepth, t.stack[k.val] = if k.val = s.sp.val then s.pc else s.stack[k.val]) ∧
      t = { s with pc := t.pc, sp := t.sp, stack := t.stack }) ∧
    (s.sp.val = 16 → exec (.call nnn) s =
      .next { s with pc := s.pc - 2#16, fault := some ⟨.stackOverflow, s.pc - 2#16, s.w⟩ })

/-- R89, R90 with R88: the skips on an immediate add 2 to PC on their condition and change nothing else. The spec marks
the encodings as general knowledge (log 16). -/
def Obligations.SkipsOnImmediates : Prop :=
  ∀ (x : Reg) (kk : Byte) (s : State),
    decodeWord (0x3#4 ++ x ++ kk) = .seImm x kk ∧ decodeWord (0x4#4 ++ x ++ kk) = .sneImm x kk ∧
    exec (.seImm x kk) s = .next (if s.reg x = kk then { s with pc := s.pc + 2#16 } else s) ∧
    exec (.sneImm x kk) s = .next (if s.reg x = kk then s else { s with pc := s.pc + 2#16 })

/-- R91, R92 with R88: SE skips where V[x] = V[y] and SNE where they differ, by adding 2 to PC; nothing else changes,
and W[3:0] does not matter. The spec marks the encodings as general knowledge (log 16). -/
def Obligations.SkipsOnRegisters : Prop :=
  ∀ (x y : Reg) (n : Nibble) (s : State),
    decodeWord (0x5#4 ++ x ++ y ++ n) = .seReg x y ∧ decodeWord (0x9#4 ++ x ++ y ++ n) = .sneReg x y ∧
    exec (.seReg x y) s = .next (if s.reg x = s.reg y then { s with pc := s.pc + 2#16 } else s) ∧
    exec (.sneReg x y) s = .next (if s.reg x = s.reg y then s else { s with pc := s.pc + 2#16 })

/-- An unassigned word of families 0, 8, E and F does nothing under `UNASSIGNED_POLICY = NOP` and raises
UnassignedFault(W) under FAULT. R94, R164 (marked as decision D15). -/
def Obligations.UnassignedWordsDoNothingOrFault : Prop :=
  ∀ (w : Word) (i : Instr), i ∈ [Instr.nop0 w, .nop8 w, .nopE w, .nopF w] → ∀ s : State,
    (i.wf = true → decodeWord w = i) ∧
    (s.cfg.unassignedPolicy = .nop → exec i s = .next s) ∧
    (s.cfg.unassignedPolicy = .fault → exec i s =
      .next { s with pc := s.pc - 2#16, fault := some ⟨.unassigned w, s.pc - 2#16, s.w⟩ })

/-! ### ALU -/

/-- R96, R97, R98: LD Vx, kk; ADD Vx, kk modulo 256 with no flag; LD Vx, Vy. Only V[x] changes. The spec marks the
encodings and the immediate forms as general knowledge (log 16). -/
def Obligations.LoadsAndAddImmediate : Prop :=
  ∀ (x y : Reg) (kk : Byte) (s : State),
    decodeWord (0x6#4 ++ x ++ kk) = .ldImm x kk ∧ decodeWord (0x7#4 ++ x ++ kk) = .addImm x kk ∧
    decodeWord (0x8#4 ++ x ++ y ++ 0x0#4) = .ldReg x y ∧
    ∃ t u q : State, exec (.ldImm x kk) s = .next t ∧ exec (.addImm x kk) s = .next u ∧
      exec (.ldReg x y) s = .next q ∧
      t.reg x = kk ∧ (u.reg x).toNat = ((s.reg x).toNat + kk.toNat) % 256 ∧ q.reg x = s.reg y ∧
      (∀ r, r ≠ x → t.reg r = s.reg r ∧ u.reg r = s.reg r ∧ q.reg r = s.reg r) ∧
      t = { s with v := t.v } ∧ u = { s with v := u.v } ∧ q = { s with v := q.v }

/-- R99, R100, R101: OR, AND and XOR act bit by bit; VF is not written unless it is the destination. The spec marks the
encodings as general knowledge (log 16). -/
def Obligations.BitwiseOperations : Prop :=
  ∀ (x y : Reg) (s : State),
    decodeWord (0x8#4 ++ x ++ y ++ 0x1#4) = .orReg x y ∧ decodeWord (0x8#4 ++ x ++ y ++ 0x2#4) = .andReg x y ∧
    decodeWord (0x8#4 ++ x ++ y ++ 0x3#4) = .xorReg x y ∧
    ∃ t u q : State, exec (.orReg x y) s = .next t ∧ exec (.andReg x y) s = .next u ∧
      exec (.xorReg x y) s = .next q ∧
      (∀ k : Fin 8, (t.reg x)[k] = ((s.reg x)[k] || (s.reg y)[k]) ∧ (u.reg x)[k] = ((s.reg x)[k] && (s.reg y)[k]) ∧
        (q.reg x)[k] = ((s.reg x)[k] != (s.reg y)[k])) ∧
      (∀ r, r ≠ x → t.reg r = s.reg r ∧ u.reg r = s.reg r ∧ q.reg r = s.reg r) ∧
      t = { s with v := t.v } ∧ u = { s with v := u.v } ∧ q = { s with v := q.v }

/-- R102: ADD Vx, Vy. The destination holds the sum modulo 256 and, where it is not VF, VF holds the carry; the operands
are those before the instruction, VF among them (the order is decision D8). Holds under OPERANDS_FIRST for every x and
y, and under ANY where VF is no operand (R109); the other case is `VfAliasAnyLeavesFreeValues`. -/
def Obligations.AddWithCarry : Prop :=
  ∀ (x y : Reg) (s : State), decodeWord (0x8#4 ++ x ++ y ++ 0x4#4) = .addReg x y ∧
    (s.cfg.vfAlias = .operandsFirst ∨ (x ≠ 15#4 ∧ y ≠ 15#4) →
      ∃ t, exec (.addReg x y) s = .next t ∧
        (t.reg x).toNat = ((s.reg x).toNat + (s.reg y).toNat) % 256 ∧
        (x ≠ 15#4 → (t.reg 15#4).toNat = if 255 < (s.reg x).toNat + (s.reg y).toNat then 1 else 0) ∧
        (∀ r, r ≠ x → r ≠ 15#4 → t.reg r = s.reg r) ∧ t = { s with v := t.v })

/-- R103, R105: SUB is `Vx - Vy` and SUBN `Vy - Vx`, modulo 256; VF, where it is not the destination, is 1 exactly where
the minuend is strictly greater. Same condition on VF_ALIAS as `AddWithCarry` (R109, decision D8). -/
def Obligations.SubtractsWithNotBorrow : Prop :=
  ∀ (x y : Reg) (s : State),
    decodeWord (0x8#4 ++ x ++ y ++ 0x5#4) = .sub x y ∧ decodeWord (0x8#4 ++ x ++ y ++ 0x7#4) = .subn x y ∧
    (s.cfg.vfAlias = .operandsFirst ∨ (x ≠ 15#4 ∧ y ≠ 15#4) →
      ∃ t u, exec (.sub x y) s = .next t ∧ exec (.subn x y) s = .next u ∧
        ((t.reg x).toNat : Int) = ((s.reg x).toNat - (s.reg y).toNat : Int) % 256 ∧
        ((u.reg x).toNat : Int) = ((s.reg y).toNat - (s.reg x).toNat : Int) % 256 ∧
        (x ≠ 15#4 → (t.reg 15#4).toNat = (if (s.reg y).toNat < (s.reg x).toNat then 1 else 0) ∧
          (u.reg 15#4).toNat = if (s.reg x).toNat < (s.reg y).toNat then 1 else 0) ∧
        (∀ r, r ≠ x → r ≠ 15#4 → t.reg r = s.reg r ∧ u.reg r = s.reg r) ∧
        t = { s with v := t.v } ∧ u = { s with v := u.v })

/-- R104, R106: SHR and SHL shift Vx by one, whatever y is; VF, where it is not the destination, is the bit shifted out.
Holds under OPERANDS_FIRST, and under ANY where x is not 15 (R109, decision D8). -/
def Obligations.ShiftsByOne : Prop :=
  ∀ (x y : Reg) (s : State),
    decodeWord (0x8#4 ++ x ++ y ++ 0x6#4) = .shr x y ∧ decodeWord (0x8#4 ++ x ++ y ++ 0xE#4) = .shl x y ∧
    (s.cfg.vfAlias = .operandsFirst ∨ x ≠ 15#4 →
      ∃ t u, exec (.shr x y) s = .next t ∧ exec (.shl x y) s = .next u ∧
        (t.reg x).toNat = (s.reg x).toNat / 2 ∧ (u.reg x).toNat = (s.reg x).toNat * 2 % 256 ∧
        (x ≠ 15#4 → (t.reg 15#4).toNat = (s.reg x).toNat % 2 ∧ (u.reg 15#4).toNat = (s.reg x).toNat / 128) ∧
        (∀ r, r ≠ x → r ≠ 15#4 → t.reg r = s.reg r ∧ u.reg r = s.reg r) ∧
        t = { s with v := t.v } ∧ u = { s with v := u.v })

/-- Under `VF_ALIAS = ANY`, an ALU instruction that has VF as an operand or the destination completes with a fresh free
byte in VF and, where x is not 15, another in V[x]; every other register is unchanged. R109 (marked as decision D8);
the order of the two draws is the model's choice (log 8). -/
def Obligations.VfAliasAnyLeavesFreeValues : Prop :=
  ∀ (x y : Reg) (s : State) (i : Instr), s.cfg.vfAlias = .any →
    (i ∈ [Instr.addReg x y, .sub x y, .subn x y] ∧ (x = 15#4 ∨ y = 15#4)) ∨
      (i ∈ [Instr.shr x y, .shl x y] ∧ x = 15#4) →
    ∃ t, exec i s = .next t ∧ t.reg 15#4 = Config.freeByte s.draws ∧
      (x ≠ 15#4 → t.reg x = Config.freeByte (s.draws + 1)) ∧
      (∀ r, r ≠ x → r ≠ 15#4 → t.reg r = s.reg r) ∧
      t = { s with v := t.v, draws := if x = 15#4 then s.draws + 1 else s.draws + 2 }

/-- R107: RND takes one fresh draw and stores it AND kk; VF is not written unless it is the destination. The draw is the
model's free value of number `draws` (log 2), so this holds whatever it is. -/
def Obligations.RndMasksAFreshDraw : Prop :=
  ∀ (x : Reg) (kk : Byte) (s : State), decodeWord (0xC#4 ++ x ++ kk) = .rnd x kk ∧
    ∃ t, exec (.rnd x kk) s = .next t ∧ t.reg x = Config.freeByte s.draws &&& kk ∧
      (∀ r, r ≠ x → t.reg r = s.reg r) ∧ t = { s with v := t.v, draws := s.draws + 1 }

/-! ### Index register and timers -/

/-- R111: LD I, nnn sets I to nnn and changes nothing else. The spec marks the operation and encoding as general
knowledge (log 16). -/
def Obligations.LdISetsTheIndex : Prop :=
  ∀ (nnn : Addr12) (s : State), decodeWord (0xA#4 ++ nnn) = .ldI nnn ∧
    ∃ a : Word, a.toNat = nnn.toNat ∧ exec (.ldI nnn) s = .next { s with i := a }

/-- ADD I, Vx is modulo 2^16 with no flag and no fault; LD F, Vx is `FONT_BASE + 5 * V[x]`, exact and not masked. R112,
R113 (marked as decisions D9, D10, D11); the font base is a parameter within the reserved range (log 7). -/
def Obligations.AddIAndLdF : Prop :=
  ∀ (x : Reg) (s : State),
    decodeWord (0xF#4 ++ x ++ 0x1E#8) = .addI x ∧ decodeWord (0xF#4 ++ x ++ 0x29#8) = .ldF x ∧
    (∃ a : Word, a.toNat = (s.i.toNat + (s.reg x).toNat) % 65536 ∧ exec (.addI x) s = .next { s with i := a }) ∧
    (∃ a : Word, a.toNat = s.cfg.fontBase.val + 5 * (s.reg x).toNat ∧ exec (.ldF x) s = .next { s with i := a })

/-- R114, R115, R116: LD Vx, DT reads DT as it stands before the tick; LD DT, Vx and LD ST, Vx set a timer, and under
PER_CYCLE the end of the same cycle ticks it. The spec marks the encodings and operations as general knowledge (log
16). -/
def Obligations.TimerMoves : Prop :=
  ∀ (x : Reg) (s : State),
    decodeWord (0xF#4 ++ x ++ 0x07#8) = .ldVxDT x ∧ decodeWord (0xF#4 ++ x ++ 0x15#8) = .ldDT x ∧
    decodeWord (0xF#4 ++ x ++ 0x18#8) = .ldST x ∧
    (∃ t, exec (.ldVxDT x) s = .next t ∧ t.reg x = s.dt ∧ (∀ r, r ≠ x → t.reg r = s.reg r) ∧
      t = { s with v := t.v }) ∧
    exec (.ldDT x) s = .next { s with dt := s.reg x } ∧
    exec (.ldST x) s = .next { s with st := s.reg x } ∧
    (s.fault = none → s.cfg.timerMode = .perCycle →
      ({ s with dt := s.reg x } : State).endCycle.dt.toNat = (s.reg x).toNat - 1 ∧
      ({ s with st := s.reg x } : State).endCycle.st.toNat = (s.reg x).toNat - 1)

/-! ### Display -/

/-- R118: CLS turns every cell off and changes nothing else; every 0x0nn0 word is CLS. The spec marks the operation and
encoding as general knowledge (log 16). -/
def Obligations.ClsClearsTheFramebuffer : Prop :=
  (∀ nn : Byte, decodeWord (0x0#4 ++ nn ++ 0x0#4) = .cls) ∧
  ∀ s : State, ∃ t, exec .cls s = .next t ∧ (∀ r c, t.cell r c = false) ∧ t = { s with fb := t.fb }

/-- DRW, where no row faults: a cell is inverted exactly if a set sprite bit falls on it, VF is 1 exactly if one of
those cells was on, and nothing else changes. Under WRAP and CLIP a row faults only outside memory, and a height of 0
never does (R125). R119 to R125 (R119, R122 to R124 marked as decisions D6, D28, R125 as derived). -/
def Obligations.DrwXorsTheSprite : Prop :=
  ∀ (x y : Reg) (n : Nibble) (s : State), decodeWord (0xD#4 ++ x ++ y ++ n) = .drw x y n ∧
    ((∀ j, j < n.toNat → s.rowFits x y j) →
      ∃ t, exec (.drw x y n) s = .next t ∧
        (∀ r c, s.spriteCovers x y n r c → t.cell r c = !s.cell r c) ∧
        (∀ r c, ¬ s.spriteCovers x y n r c → t.cell r c = s.cell r c) ∧
        ((∃ r c, s.spriteCovers x y n r c ∧ s.cell r c = true) → (t.reg 15#4).toNat = 1) ∧
        ((∀ r c, s.spriteCovers x y n r c → s.cell r c = false) → (t.reg 15#4).toNat = 0) ∧
        (∀ r, r ≠ 15#4 → t.reg r = s.reg r) ∧ t = { s with fb := t.fb, v := t.v })

/-- DRW reports the first fault in statement order: the first row that does not fit, and in it its byte's address
before the first set bit outside the framebuffer; FB and VF are then as before. R119, R122, R147 (marked as decisions
D6, D24). -/
def Obligations.DrwReportsTheFirstFault : Prop :=
  ∀ (x y : Reg) (n : Nibble) (s : State) (j : Nat), j < n.toNat → (∀ m, m < j → s.rowFits x y m) →
    (4096 ≤ s.i.toNat + j → exec (.drw x y n) s =
      .next { s with pc := s.pc - 2#16, fault := some ⟨.bounds (s.i.toNat + j), s.pc - 2#16, s.w⟩ }) ∧
    (∀ k, s.i.toNat + j < 4096 → k < 8 → s.bitFaults x y j k → (∀ m, m < k → ¬ s.bitFaults x y j m) →
      exec (.drw x y n) s = .next { s with
        pc := s.pc - 2#16,
        fault := some ⟨.drawBounds ((s.reg x).toNat % 64 + k) ((s.reg y).toNat % 32 + j), s.pc - 2#16, s.w⟩ })

/-- Drawing the same sprite twice at the same origin restores the framebuffer, and the second draw reports a collision
exactly where the first turned a cell on. The state of the second draw may differ from the one the first left in
anything but the parameters, the framebuffer, I, V[x], V[y] and the sprite bytes. R127 (marked as derived). -/
def Obligations.DrawingTwiceRestoresTheFramebuffer : Prop :=
  ∀ (x y : Reg) (n : Nibble) (s t u : State), (∀ j, j < n.toNat → s.rowFits x y j) →
    exec (.drw x y n) s = .next t →
    u.cfg = s.cfg → u.fb = t.fb → u.i = s.i → u.reg x = s.reg x → u.reg y = s.reg y →
    (∀ j, j < n.toNat → u.byteAt (s.i.toNat + j) = s.byteAt (s.i.toNat + j)) →
    ∃ q, exec (.drw x y n) u = .next q ∧ q.fb = s.fb ∧
      ((∃ r c, s.cell r c = false ∧ t.cell r c = true) → (q.reg 15#4).toNat = 1) ∧
      ((∀ r c, s.cell r c = false → t.cell r c = false) → (q.reg 15#4).toNat = 0)

/-! ### Keypad -/

/-- SKP and SKNP skip on the level of the key V[x] names, and raise KeyRangeFault(V[x]) where it names none. R128, R129,
R130 (R128 marked as decision D7, the operations as general knowledge). -/
def Obligations.KeySkipsReadTheNamedKey : Prop :=
  ∀ (x : Reg) (m : Nibble) (s : State),
    decodeWord (0xE#4 ++ x ++ m ++ 0xE#4) = .skp x ∧ decodeWord (0xE#4 ++ x ++ m ++ 0x1#4) = .sknp x ∧
    (∀ k : Fin numKeys, (s.reg x).toNat = k.val →
      exec (.skp x) s = .next (if s.keys[k.val] = true then { s with pc := s.pc + 2#16 } else s) ∧
      exec (.sknp x) s = .next (if s.keys[k.val] = true then s else { s with pc := s.pc + 2#16 })) ∧
    (16 ≤ (s.reg x).toNat → ∀ i ∈ [Instr.skp x, .sknp x], exec i s =
      .next { s with pc := s.pc - 2#16, fault := some ⟨.keyRange (s.reg x), s.pc - 2#16, s.w⟩ })

/-- R131: LD Vx, K stores the lowest pressed key's index; with none pressed it takes PC back by 2 and changes nothing
else. The spec marks the encoding as general knowledge (log 16). -/
def Obligations.KeyWaitTakesTheLowestKey : Prop :=
  ∀ (x : Reg) (s : State), decodeWord (0xF#4 ++ x ++ 0x0A#8) = .ldVxK x ∧
    (∀ k : Fin numKeys, s.keys[k.val] = true → (∀ m : Fin numKeys, m.val < k.val → s.keys[m.val] = false) →
      ∃ t, exec (.ldVxK x) s = .next t ∧ (t.reg x).toNat = k.val ∧ (∀ r, r ≠ x → t.reg r = s.reg r) ∧
        t = { s with v := t.v }) ∧
    ((∀ m : Fin numKeys, s.keys[m.val] = false) → exec (.ldVxK x) s = .next { s with pc := s.pc - 2#16 })

/-- R132: with no key pressed, any number of cycles of a waiting LD Vx, K leaves everything but the timers, which count
the cycles down under PER_CYCLE and stand under EXTERNAL, and the transient W; on the cycle that finds exactly one key
pressed, that key's index is stored and PC moves past the instruction. -/
def Obligations.KeyWaitSpinsUntilAKey : Prop :=
  ∀ (n : Nat) (x : Reg) (s : State) (w : Word), s.fault = none → s.fetch = .ok w →
    decodeWord w = .ldVxK x → (∀ m : Fin numKeys, s.keys[m.val] = false) →
    ∃ t, Sys2Proof.core.run n s = .next t ∧ t = { s with dt := t.dt, st := t.st, w := t.w } ∧
      (s.cfg.timerMode = .perCycle → t.dt.toNat = s.dt.toNat - n ∧ t.st.toNat = s.st.toNat - n) ∧
      (s.cfg.timerMode = .external → t.dt = s.dt ∧ t.st = s.st) ∧
      (∀ (k : Fin numKeys) (keys : Vector Bool numKeys),
        (∀ m : Fin numKeys, keys[m.val] = decide (m = k)) →
        ∃ u, step { t with keys := keys } = .next u ∧ (u.reg x).toNat = k.val ∧ u.pc = s.pc + 2#16)

/-! ### Memory blocks -/

/-- R134: LD B stores hundreds, tens and units at I, I+1 and I+2, and changes no other byte and nothing else; if one of
the three addresses lies outside memory, the first that does is reported and no digit is kept (R137). -/
def Obligations.BcdStoresThreeDigits : Prop :=
  ∀ (x : Reg) (s : State), decodeWord (0xF#4 ++ x ++ 0x33#8) = .ldB x ∧
    (s.i.toNat + 2 < 4096 → ∃ t, exec (.ldB x) s = .next t ∧
      (t.byteAt s.i.toNat).toNat = (s.reg x).toNat / 100 ∧
      (t.byteAt (s.i.toNat + 1)).toNat = (s.reg x).toNat / 10 % 10 ∧
      (t.byteAt (s.i.toNat + 2)).toNat = (s.reg x).toNat % 10 ∧
      (∀ a, a < s.i.toNat ∨ s.i.toNat + 2 < a → t.byteAt a = s.byteAt a) ∧ t = { s with mem := t.mem }) ∧
    (∀ j, j ≤ 2 → 4096 ≤ s.i.toNat + j → (∀ m, m < j → s.i.toNat + m < 4096) → exec (.ldB x) s =
      .next { s with pc := s.pc - 2#16, fault := some ⟨.bounds (s.i.toNat + j), s.pc - 2#16, s.w⟩ })

/-- R135: LD [I], Vx stores V0 to Vx at I and up and changes no other byte and nothing else; a dump that does not fit
reports the first address outside memory and keeps no byte (R137). -/
def Obligations.DumpStoresTheRegisters : Prop :=
  ∀ (x : Reg) (s : State), decodeWord (0xF#4 ++ x ++ 0x55#8) = .ldAtI x ∧
    (s.i.toNat + x.toNat < 4096 → ∃ t, exec (.ldAtI x) s = .next t ∧
      (∀ r : Reg, r.toNat ≤ x.toNat → t.byteAt (s.i.toNat + r.toNat) = s.reg r) ∧
      (∀ a, a < s.i.toNat ∨ s.i.toNat + x.toNat < a → t.byteAt a = s.byteAt a) ∧ t = { s with mem := t.mem }) ∧
    (∀ j, j ≤ x.toNat → 4096 ≤ s.i.toNat + j → (∀ m, m < j → s.i.toNat + m < 4096) → exec (.ldAtI x) s =
      .next { s with pc := s.pc - 2#16, fault := some ⟨.bounds (s.i.toNat + j), s.pc - 2#16, s.w⟩ })

/-- R136: LD Vx, [I] loads V0 to Vx from I and up and changes nothing else; a load that does not fit reports the first
address outside memory and keeps no register (R137). -/
def Obligations.LoadFillsTheRegisters : Prop :=
  ∀ (x : Reg) (s : State), decodeWord (0xF#4 ++ x ++ 0x65#8) = .ldVxAtI x ∧
    (s.i.toNat + x.toNat < 4096 → ∃ t, exec (.ldVxAtI x) s = .next t ∧
      (∀ r : Reg, r.toNat ≤ x.toNat → t.reg r = s.byteAt (s.i.toNat + r.toNat)) ∧
      (∀ r : Reg, x.toNat < r.toNat → t.reg r = s.reg r) ∧ t = { s with v := t.v }) ∧
    (∀ j, j ≤ x.toNat → 4096 ≤ s.i.toNat + j → (∀ m, m < j → s.i.toNat + m < 4096) → exec (.ldVxAtI x) s =
      .next { s with pc := s.pc - 2#16, fault := some ⟨.bounds (s.i.toNat + j), s.pc - 2#16, s.w⟩ })

/-- A dump followed by a load of the same range restores the dumped registers, whatever the registers were in between,
and leaves I. R139 (marked as derived). -/
def Obligations.DumpThenLoadRestoresTheRegisters : Prop :=
  ∀ (x : Reg) (s t u : State), s.i.toNat + x.toNat < 4096 → exec (.ldAtI x) s = .next t →
    u.i = s.i → (∀ a, u.byteAt a = t.byteAt a) →
    ∃ q, exec (.ldVxAtI x) u = .next q ∧ (∀ r : Reg, r.toNat ≤ x.toNat → q.reg r = s.reg r) ∧ q.i = s.i ∧ t.i = s.i

/-! ### Memory, reset and the host -/

/-- Memory reads what was last written: a store inside memory succeeds, is read back, leaves every other byte, and keeps
the canonical form (log 4); a store or a read at or above 4096 is BoundsFault of that address. R12, R50, R51, R55 (R12
and R51 marked as decision D4). -/
def Obligations.StoreThenReadReturnsTheByte : Prop :=
  ∀ (s : State) (a : Nat) (v : Byte),
    (a < 4096 → ∃ t, s.writeByte a v = .ok t ∧ t.readByte a = .ok v ∧
      (∀ b, b ≠ a → t.byteAt b = s.byteAt b) ∧ t = { s with mem := t.mem } ∧
      (Memory.wf s.dflt s.mem → Memory.wf t.dflt t.mem)) ∧
    (4096 ≤ a → s.writeByte a v = .error (.bounds a) ∧ s.readByte a = .error (.bounds a))

/-- A one-byte store to `a` is the high byte of the word next fetched at `a` and the low byte of the word fetched at
`a - 1`; the other byte is unchanged. R47, R59 (R47 marked as derived). -/
def Obligations.StoresReachTheNextFetch : Prop :=
  ∀ (s t : State) (a : Nat) (v : Byte), s.writeByte a v = .ok t → s.pc.toNat + 1 < 4096 →
    (a = s.pc.toNat → ∃ w : Word, t.fetch = .ok w ∧
      w.toNat = v.toNat * 256 + (s.byteAt (s.pc.toNat + 1)).toNat) ∧
    (a = s.pc.toNat + 1 → ∃ w : Word, t.fetch = .ok w ∧
      w.toNat = (s.byteAt s.pc.toNat).toNat * 256 + v.toNat) ∧
    (a ≠ s.pc.toNat → a ≠ s.pc.toNat + 1 → t.fetch = s.fetch)

/-- The first reset is the construction state under R6's defaults, which stand here value by value, R39's font, marked
as general knowledge (log 16), among them; and the host's Reset(FONT), from every state, one with a recorded fault
included, leaves the construction state with the font it gives (R157, R166); that Reset keeps the other parameters is
the model's choice (log 10), and so are the counters of draws and resets (log 2, log 3). What the construction state
holds under any parameters: PC at 0x200, an empty stack, no key, no fault, no W, the font at FONT_BASE; and under
`INIT_POLICY = ZERO` zero everywhere else. R6, R38, R39, R157, R166, R167, R168 (R38, R39, R157, R166 marked as
decisions D1, D5, D12, D19, D21, R168 as derived). -/
def Obligations.ResetLeavesTheConstructionState : Prop :=
  State.reset = State.construct defaultConfig 0 0 ∧
  (defaultConfig.initPolicy = .zero ∧ defaultConfig.drawEdge = .fault ∧ defaultConfig.unassignedPolicy = .nop ∧
    defaultConfig.vfAlias = .operandsFirst ∧ defaultConfig.timerMode = .perCycle ∧
    defaultConfig.fontBase.val = 0x050 ∧
    defaultConfig.font.toList =
      [0xF0#8, 0x90#8, 0x90#8, 0x90#8, 0xF0#8, 0x20#8, 0x60#8, 0x20#8, 0x20#8, 0x70#8,
        0xF0#8, 0x10#8, 0xF0#8, 0x80#8, 0xF0#8, 0xF0#8, 0x10#8, 0xF0#8, 0x10#8, 0xF0#8] ++
      [0x90#8, 0x90#8, 0xF0#8, 0x10#8, 0x10#8, 0xF0#8, 0x80#8, 0xF0#8, 0x10#8, 0xF0#8,
        0xF0#8, 0x80#8, 0xF0#8, 0x90#8, 0xF0#8, 0xF0#8, 0x10#8, 0x20#8, 0x40#8, 0x40#8] ++
      [0xF0#8, 0x90#8, 0xF0#8, 0x90#8, 0xF0#8, 0xF0#8, 0x90#8, 0xF0#8, 0x10#8, 0xF0#8,
        0xF0#8, 0x90#8, 0xF0#8, 0x90#8, 0x90#8, 0xE0#8, 0x90#8, 0xE0#8, 0x90#8, 0xE0#8] ++
      [0xF0#8, 0x80#8, 0x80#8, 0x80#8, 0xF0#8, 0xE0#8, 0x90#8, 0x90#8, 0x90#8, 0xE0#8,
        0xF0#8, 0x80#8, 0xF0#8, 0x80#8, 0xF0#8, 0xF0#8, 0x80#8, 0xF0#8, 0x80#8, 0x80#8]) ∧
  (∀ (s : State) (font : Vector Byte fontSize), serve (.reset font) s =
    .next (State.construct { s.cfg with font := font } (s.epoch + 1) s.draws, .done)) ∧
  ∀ (c : Config) (e d : Nat) (s : State), s = State.construct c e d →
    s.pc.toNat = 0x200 ∧ s.sp.val = 0 ∧ (∀ k : Fin numKeys, s.keys[k.val] = false) ∧ s.fault = none ∧ s.w = none ∧
    (∀ k : Fin fontSize, s.byteAt (c.fontBase.val + k.val) = c.font[k.val]) ∧
    (c.initPolicy = .zero →
      (∀ a, a < c.fontBase.val ∨ c.fontBase.val + 80 ≤ a → s.byteAt a = 0#8) ∧
      (∀ r, s.reg r = 0#8) ∧ s.i = 0#16 ∧ s.dt = 0#8 ∧ s.st = 0#8 ∧
      (∀ k : Fin stackDepth, s.stack[k.val] = 0#16) ∧ (∀ r k, s.cell r k = false))

/-- The reset state meets the invariant. R26, R38, R168; the memory form is log 4. -/
def Obligations.ResetMeetsTheInvariant : Prop := State.reset.Inv

/-- Every cycle keeps the invariant: PC at most 0x10FE and every live return address at most 0x1000, memory in its
canonical form, no W between cycles, and a recorded fault naming the PC it left. From every state that meets it, not
only from reset. R26, R36, R142, R143 (R26 and R143 marked as derived); the memory form is log 4, W log 5. -/
def Obligations.StepKeepsTheInvariant : Prop :=
  ∀ s t : State, s.Inv → step s = .next t → t.Inv

/-- Every host call answers and keeps the invariant. R56, R61, R62, R157, R166 (marked as decisions D1, D5, D19, D21).
The invariant's canonical memory is log 4 and W none between cycles log 5; that the calls are functions used between
cycles is log 9, what Reset keeps log 10, that TimerTick() under PER_CYCLE answers and changes nothing log 11, and that
LoadImage and SetKeys act while a fault is recorded log 17. -/
def Obligations.HostCallsKeepTheInvariant : Prop :=
  ∀ (c : HostCall) (s : State), s.Inv → ∃ t a, serve c s = .next (t, a) ∧ t.Inv

/-- An image of at most 3584 bytes is stored from 0x200 and nothing else changes; a longer one is refused as oversize
and writes nothing. R61, R62 (R62 marked as decision D21). That LoadImage acts in every state, one with a recorded fault
included, is the model's inference (log 17). -/
def Obligations.LoadImageStoresOrRefuses : Prop :=
  ∀ (s : State) (bytes : List Byte),
    (bytes.length ≤ 3584 → ∃ t, serve (.loadImage bytes) s = .next (t, .ok) ∧
      (∀ k (h : k < bytes.length), t.byteAt (0x200 + k) = bytes[k]) ∧
      (∀ a, a < 0x200 ∨ 0x200 + bytes.length ≤ a → t.byteAt a = s.byteAt a) ∧ t = { s with mem := t.mem }) ∧
    (3584 < bytes.length → serve (.loadImage bytes) s = .next (s, .loadError .oversize))

/-- The read ports change nothing: the framebuffer is given row by row, a cell that is on as all ones of the width asked
for; the timers and the fault record are given as they stand. R154, R157, R158 (marked as decisions D19, D20, D22); the
width is an argument (log 12). -/
def Obligations.ReadPortsShowTheState : Prop :=
  ∀ (s : State) (width : Nat),
    (s.readFramebuffer width).length = 2048 ∧
    (∀ (r : Fin fbHeight) (c : Fin fbWidth), (s.readFramebuffer width)[64 * r.val + c.val]? =
      some (if s.cell r c = true then BitVec.allOnes width else 0#width)) ∧
    serve (.readFramebuffer width) s = .next (s, .framebuffer ((s.readFramebuffer width).map (·.toNat))) ∧
    serve .readTimers s = .next (s, .timers s.dt s.st) ∧ serve .readFault s = .next (s, .faultRecord s.fault)

/-- Under `TIMER_MODE = EXTERNAL` a cycle leaves the timers as its operation did, and the host's TimerTick() lowers each
nonzero timer by one, unless a fault is recorded; under PER_CYCLE the port does nothing (log 11). R144, R152 (marked as
decisions D5, D18). -/
def Obligations.ExternalTimersTickOnlyByTheHost : Prop :=
  ∀ s : State,
    (s.cfg.timerMode = .external → s.fault = none → ∃ t, serve .timerTick s = .next (t, .done) ∧
      t.dt.toNat = s.dt.toNat - 1 ∧ t.st.toNat = s.st.toNat - 1 ∧ t = { s with dt := t.dt, st := t.st }) ∧
    (s.cfg.timerMode = .perCycle → serve .timerTick s = .next (s, .done)) ∧
    (∀ (w : Word) (t : State), s.cfg.timerMode = .external → s.fault = none → s.fetch = .ok w →
      (∀ x, decodeWord w ≠ .ldDT x ∧ decodeWord w ≠ .ldST x) → step s = .next t → t.dt = s.dt ∧ t.st = s.st)

/-- The halt idiom: at `JP P` at address `P`, any number of cycles changes only the timers. R86, R165 (R165 marked as
decision D26). -/
def Obligations.JumpToSelfChangesOnlyTimers : Prop :=
  ∀ (n : Nat) (nnn : Addr12) (s : State) (w : Word), s.fault = none → s.w = none → s.fetch = .ok w →
    decodeWord w = .jp nnn → nnn.toNat = s.pc.toNat →
    ∃ t, Sys2Proof.core.run n s = .next t ∧ t = { s with dt := t.dt, st := t.st } ∧
      (s.cfg.timerMode = .perCycle → t.dt.toNat = s.dt.toNat - n ∧ t.st.toNat = s.st.toNat - n) ∧
      (s.cfg.timerMode = .external → t = s)
end

