-- ==== Sys2Proof/Laws/State.lean ====
section
/-! SUPPORT. What each update of the state leaves in each field: one lemma a field, true by definition. -/

namespace Sys2Proof.Machine

variable (s : State)

/-! ### setReg -/

@[simp] theorem State.setReg_cfg (r : Reg) (b : Byte) : (s.setReg r b).cfg = s.cfg := rfl
@[simp] theorem State.setReg_v (r : Reg) (b : Byte) : (s.setReg r b).v = s.v.set r.toNat b r.isLt := rfl
@[simp] theorem State.setReg_i (r : Reg) (b : Byte) : (s.setReg r b).i = s.i := rfl
@[simp] theorem State.setReg_pc (r : Reg) (b : Byte) : (s.setReg r b).pc = s.pc := rfl
@[simp] theorem State.setReg_sp (r : Reg) (b : Byte) : (s.setReg r b).sp = s.sp := rfl
@[simp] theorem State.setReg_stack (r : Reg) (b : Byte) : (s.setReg r b).stack = s.stack := rfl
@[simp] theorem State.setReg_dt (r : Reg) (b : Byte) : (s.setReg r b).dt = s.dt := rfl
@[simp] theorem State.setReg_st (r : Reg) (b : Byte) : (s.setReg r b).st = s.st := rfl
@[simp] theorem State.setReg_mem (r : Reg) (b : Byte) : (s.setReg r b).mem = s.mem := rfl
@[simp] theorem State.setReg_fb (r : Reg) (b : Byte) : (s.setReg r b).fb = s.fb := rfl
@[simp] theorem State.setReg_keys (r : Reg) (b : Byte) : (s.setReg r b).keys = s.keys := rfl
@[simp] theorem State.setReg_w (r : Reg) (b : Byte) : (s.setReg r b).w = s.w := rfl
@[simp] theorem State.setReg_fault (r : Reg) (b : Byte) : (s.setReg r b).fault = s.fault := rfl
@[simp] theorem State.setReg_draws (r : Reg) (b : Byte) : (s.setReg r b).draws = s.draws := rfl
@[simp] theorem State.setReg_epoch (r : Reg) (b : Byte) : (s.setReg r b).epoch = s.epoch := rfl

/-! ### setByte -/

@[simp] theorem State.setByte_cfg (a : Nat) (b : Byte) : (s.setByte a b).cfg = s.cfg := rfl
@[simp] theorem State.setByte_v (a : Nat) (b : Byte) : (s.setByte a b).v = s.v := rfl
@[simp] theorem State.setByte_i (a : Nat) (b : Byte) : (s.setByte a b).i = s.i := rfl
@[simp] theorem State.setByte_pc (a : Nat) (b : Byte) : (s.setByte a b).pc = s.pc := rfl
@[simp] theorem State.setByte_sp (a : Nat) (b : Byte) : (s.setByte a b).sp = s.sp := rfl
@[simp] theorem State.setByte_stack (a : Nat) (b : Byte) : (s.setByte a b).stack = s.stack := rfl
@[simp] theorem State.setByte_dt (a : Nat) (b : Byte) : (s.setByte a b).dt = s.dt := rfl
@[simp] theorem State.setByte_st (a : Nat) (b : Byte) : (s.setByte a b).st = s.st := rfl
@[simp] theorem State.setByte_mem (a : Nat) (b : Byte) : (s.setByte a b).mem = Memory.write s.dflt s.mem a b := rfl
@[simp] theorem State.setByte_fb (a : Nat) (b : Byte) : (s.setByte a b).fb = s.fb := rfl
@[simp] theorem State.setByte_keys (a : Nat) (b : Byte) : (s.setByte a b).keys = s.keys := rfl
@[simp] theorem State.setByte_w (a : Nat) (b : Byte) : (s.setByte a b).w = s.w := rfl
@[simp] theorem State.setByte_fault (a : Nat) (b : Byte) : (s.setByte a b).fault = s.fault := rfl
@[simp] theorem State.setByte_draws (a : Nat) (b : Byte) : (s.setByte a b).draws = s.draws := rfl
@[simp] theorem State.setByte_epoch (a : Nat) (b : Byte) : (s.setByte a b).epoch = s.epoch := rfl

/-! ### jumpTo -/

@[simp] theorem State.jumpTo_cfg (a : Word) : (s.jumpTo a).cfg = s.cfg := rfl
@[simp] theorem State.jumpTo_v (a : Word) : (s.jumpTo a).v = s.v := rfl
@[simp] theorem State.jumpTo_i (a : Word) : (s.jumpTo a).i = s.i := rfl
@[simp] theorem State.jumpTo_pc (a : Word) : (s.jumpTo a).pc = a := rfl
@[simp] theorem State.jumpTo_sp (a : Word) : (s.jumpTo a).sp = s.sp := rfl
@[simp] theorem State.jumpTo_stack (a : Word) : (s.jumpTo a).stack = s.stack := rfl
@[simp] theorem State.jumpTo_dt (a : Word) : (s.jumpTo a).dt = s.dt := rfl
@[simp] theorem State.jumpTo_st (a : Word) : (s.jumpTo a).st = s.st := rfl
@[simp] theorem State.jumpTo_mem (a : Word) : (s.jumpTo a).mem = s.mem := rfl
@[simp] theorem State.jumpTo_fb (a : Word) : (s.jumpTo a).fb = s.fb := rfl
@[simp] theorem State.jumpTo_keys (a : Word) : (s.jumpTo a).keys = s.keys := rfl
@[simp] theorem State.jumpTo_w (a : Word) : (s.jumpTo a).w = s.w := rfl
@[simp] theorem State.jumpTo_fault (a : Word) : (s.jumpTo a).fault = s.fault := rfl
@[simp] theorem State.jumpTo_draws (a : Word) : (s.jumpTo a).draws = s.draws := rfl
@[simp] theorem State.jumpTo_epoch (a : Word) : (s.jumpTo a).epoch = s.epoch := rfl

/-! ### latch -/

@[simp] theorem State.latch_cfg (a : Word) : (s.latch a).cfg = s.cfg := rfl
@[simp] theorem State.latch_v (a : Word) : (s.latch a).v = s.v := rfl
@[simp] theorem State.latch_i (a : Word) : (s.latch a).i = s.i := rfl
@[simp] theorem State.latch_pc (a : Word) : (s.latch a).pc = s.pc + 2#16 := rfl
@[simp] theorem State.latch_sp (a : Word) : (s.latch a).sp = s.sp := rfl
@[simp] theorem State.latch_stack (a : Word) : (s.latch a).stack = s.stack := rfl
@[simp] theorem State.latch_dt (a : Word) : (s.latch a).dt = s.dt := rfl
@[simp] theorem State.latch_st (a : Word) : (s.latch a).st = s.st := rfl
@[simp] theorem State.latch_mem (a : Word) : (s.latch a).mem = s.mem := rfl
@[simp] theorem State.latch_fb (a : Word) : (s.latch a).fb = s.fb := rfl
@[simp] theorem State.latch_keys (a : Word) : (s.latch a).keys = s.keys := rfl
@[simp] theorem State.latch_w (a : Word) : (s.latch a).w = some a := rfl
@[simp] theorem State.latch_fault (a : Word) : (s.latch a).fault = s.fault := rfl
@[simp] theorem State.latch_draws (a : Word) : (s.latch a).draws = s.draws := rfl
@[simp] theorem State.latch_epoch (a : Word) : (s.latch a).epoch = s.epoch := rfl

/-! ### timerTick -/

@[simp] theorem State.timerTick_cfg : (s.timerTick).cfg = s.cfg := rfl
@[simp] theorem State.timerTick_v : (s.timerTick).v = s.v := rfl
@[simp] theorem State.timerTick_i : (s.timerTick).i = s.i := rfl
@[simp] theorem State.timerTick_pc : (s.timerTick).pc = s.pc := rfl
@[simp] theorem State.timerTick_sp : (s.timerTick).sp = s.sp := rfl
@[simp] theorem State.timerTick_stack : (s.timerTick).stack = s.stack := rfl
@[simp] theorem State.timerTick_dt : (s.timerTick).dt = countDown s.dt := rfl
@[simp] theorem State.timerTick_st : (s.timerTick).st = countDown s.st := rfl
@[simp] theorem State.timerTick_mem : (s.timerTick).mem = s.mem := rfl
@[simp] theorem State.timerTick_fb : (s.timerTick).fb = s.fb := rfl
@[simp] theorem State.timerTick_keys : (s.timerTick).keys = s.keys := rfl
@[simp] theorem State.timerTick_w : (s.timerTick).w = s.w := rfl
@[simp] theorem State.timerTick_fault : (s.timerTick).fault = s.fault := rfl
@[simp] theorem State.timerTick_draws : (s.timerTick).draws = s.draws := rfl
@[simp] theorem State.timerTick_epoch : (s.timerTick).epoch = s.epoch := rfl

/-! ### enterFault -/

@[simp] theorem State.enterFault_cfg (k : Fault) (p : Word) (u : Option Word) :
    (s.enterFault k p u).cfg = s.cfg := rfl
@[simp] theorem State.enterFault_v (k : Fault) (p : Word) (u : Option Word) : (s.enterFault k p u).v = s.v := rfl
@[simp] theorem State.enterFault_i (k : Fault) (p : Word) (u : Option Word) : (s.enterFault k p u).i = s.i := rfl
@[simp] theorem State.enterFault_pc (k : Fault) (p : Word) (u : Option Word) : (s.enterFault k p u).pc = p := rfl
@[simp] theorem State.enterFault_sp (k : Fault) (p : Word) (u : Option Word) : (s.enterFault k p u).sp = s.sp := rfl
@[simp] theorem State.enterFault_stack (k : Fault) (p : Word) (u : Option Word) :
    (s.enterFault k p u).stack = s.stack := rfl
@[simp] theorem State.enterFault_dt (k : Fault) (p : Word) (u : Option Word) : (s.enterFault k p u).dt = s.dt := rfl
@[simp] theorem State.enterFault_st (k : Fault) (p : Word) (u : Option Word) : (s.enterFault k p u).st = s.st := rfl
@[simp] theorem State.enterFault_mem (k : Fault) (p : Word) (u : Option Word) :
    (s.enterFault k p u).mem = s.mem := rfl
@[simp] theorem State.enterFault_fb (k : Fault) (p : Word) (u : Option Word) : (s.enterFault k p u).fb = s.fb := rfl
@[simp] theorem State.enterFault_keys (k : Fault) (p : Word) (u : Option Word) :
    (s.enterFault k p u).keys = s.keys := rfl
@[simp] theorem State.enterFault_w (k : Fault) (p : Word) (u : Option Word) : (s.enterFault k p u).w = s.w := rfl
@[simp] theorem State.enterFault_fault (k : Fault) (p : Word) (u : Option Word) :
    (s.enterFault k p u).fault = some ⟨k, p, u⟩ := rfl
@[simp] theorem State.enterFault_draws (k : Fault) (p : Word) (u : Option Word) :
    (s.enterFault k p u).draws = s.draws := rfl
@[simp] theorem State.enterFault_epoch (k : Fault) (p : Word) (u : Option Word) :
    (s.enterFault k p u).epoch = s.epoch := rfl

/-! ### takeFault -/

@[simp] theorem State.takeFault_cfg (k : Fault) : (s.takeFault k).cfg = s.cfg := rfl
@[simp] theorem State.takeFault_v (k : Fault) : (s.takeFault k).v = s.v := rfl
@[simp] theorem State.takeFault_i (k : Fault) : (s.takeFault k).i = s.i := rfl
@[simp] theorem State.takeFault_pc (k : Fault) : (s.takeFault k).pc = s.pc - 2#16 := rfl
@[simp] theorem State.takeFault_sp (k : Fault) : (s.takeFault k).sp = s.sp := rfl
@[simp] theorem State.takeFault_stack (k : Fault) : (s.takeFault k).stack = s.stack := rfl
@[simp] theorem State.takeFault_dt (k : Fault) : (s.takeFault k).dt = s.dt := rfl
@[simp] theorem State.takeFault_st (k : Fault) : (s.takeFault k).st = s.st := rfl
@[simp] theorem State.takeFault_mem (k : Fault) : (s.takeFault k).mem = s.mem := rfl
@[simp] theorem State.takeFault_fb (k : Fault) : (s.takeFault k).fb = s.fb := rfl
@[simp] theorem State.takeFault_keys (k : Fault) : (s.takeFault k).keys = s.keys := rfl
@[simp] theorem State.takeFault_w (k : Fault) : (s.takeFault k).w = s.w := rfl
@[simp] theorem State.takeFault_fault (k : Fault) : (s.takeFault k).fault = some ⟨k, s.pc - 2#16, s.w⟩ := rfl
@[simp] theorem State.takeFault_draws (k : Fault) : (s.takeFault k).draws = s.draws := rfl
@[simp] theorem State.takeFault_epoch (k : Fault) : (s.takeFault k).epoch = s.epoch := rfl

/-! ### draw -/

@[simp] theorem State.draw_cfg : (s.draw.2).cfg = s.cfg := rfl
@[simp] theorem State.draw_v : (s.draw.2).v = s.v := rfl
@[simp] theorem State.draw_i : (s.draw.2).i = s.i := rfl
@[simp] theorem State.draw_pc : (s.draw.2).pc = s.pc := rfl
@[simp] theorem State.draw_sp : (s.draw.2).sp = s.sp := rfl
@[simp] theorem State.draw_stack : (s.draw.2).stack = s.stack := rfl
@[simp] theorem State.draw_dt : (s.draw.2).dt = s.dt := rfl
@[simp] theorem State.draw_st : (s.draw.2).st = s.st := rfl
@[simp] theorem State.draw_mem : (s.draw.2).mem = s.mem := rfl
@[simp] theorem State.draw_fb : (s.draw.2).fb = s.fb := rfl
@[simp] theorem State.draw_keys : (s.draw.2).keys = s.keys := rfl
@[simp] theorem State.draw_w : (s.draw.2).w = s.w := rfl
@[simp] theorem State.draw_fault : (s.draw.2).fault = s.fault := rfl
@[simp] theorem State.draw_draws : (s.draw.2).draws = s.draws + 1 := rfl
@[simp] theorem State.draw_epoch : (s.draw.2).epoch = s.epoch := rfl

/-! ### setKeys -/

@[simp] theorem State.setKeys_cfg (k : Vector Bool numKeys) : (s.setKeys k).cfg = s.cfg := rfl
@[simp] theorem State.setKeys_v (k : Vector Bool numKeys) : (s.setKeys k).v = s.v := rfl
@[simp] theorem State.setKeys_i (k : Vector Bool numKeys) : (s.setKeys k).i = s.i := rfl
@[simp] theorem State.setKeys_pc (k : Vector Bool numKeys) : (s.setKeys k).pc = s.pc := rfl
@[simp] theorem State.setKeys_sp (k : Vector Bool numKeys) : (s.setKeys k).sp = s.sp := rfl
@[simp] theorem State.setKeys_stack (k : Vector Bool numKeys) : (s.setKeys k).stack = s.stack := rfl
@[simp] theorem State.setKeys_dt (k : Vector Bool numKeys) : (s.setKeys k).dt = s.dt := rfl
@[simp] theorem State.setKeys_st (k : Vector Bool numKeys) : (s.setKeys k).st = s.st := rfl
@[simp] theorem State.setKeys_mem (k : Vector Bool numKeys) : (s.setKeys k).mem = s.mem := rfl
@[simp] theorem State.setKeys_fb (k : Vector Bool numKeys) : (s.setKeys k).fb = s.fb := rfl
@[simp] theorem State.setKeys_keys (k : Vector Bool numKeys) : (s.setKeys k).keys = k := rfl
@[simp] theorem State.setKeys_w (k : Vector Bool numKeys) : (s.setKeys k).w = s.w := rfl
@[simp] theorem State.setKeys_fault (k : Vector Bool numKeys) : (s.setKeys k).fault = s.fault := rfl
@[simp] theorem State.setKeys_draws (k : Vector Bool numKeys) : (s.setKeys k).draws = s.draws := rfl
@[simp] theorem State.setKeys_epoch (k : Vector Bool numKeys) : (s.setKeys k).epoch = s.epoch := rfl

/-! ### What an unlisted address reads as depends on the parameters and the reset alone -/

@[simp] theorem State.setReg_dflt (r : Reg) (b : Byte) : (s.setReg r b).dflt = s.dflt := rfl
@[simp] theorem State.setByte_dflt (a : Nat) (b : Byte) : (s.setByte a b).dflt = s.dflt := rfl
@[simp] theorem State.jumpTo_dflt (a : Word) : (s.jumpTo a).dflt = s.dflt := rfl
@[simp] theorem State.latch_dflt (a : Word) : (s.latch a).dflt = s.dflt := rfl
@[simp] theorem State.timerTick_dflt : s.timerTick.dflt = s.dflt := rfl
@[simp] theorem State.takeFault_dflt (k : Fault) : (s.takeFault k).dflt = s.dflt := rfl
@[simp] theorem State.draw_dflt : s.draw.2.dflt = s.dflt := rfl

theorem State.draw_byte : s.draw.1 = Config.freeByte s.draws := rfl

end Sys2Proof.Machine
end

