-- ==== Sys2Proof/Laws/Memory.lean ====
section
/-! SUPPORT. The laws of memory: read after write, and the canonical form kept by every operation. -/

namespace Sys2Proof.Machine

variable (d : Nat → Byte)

theorem Memory.read_erase (m : Memory) (a b : Nat) :
    Memory.read d (Memory.erase m a) b = if b = a then d a else Memory.read d m b := by
  induction m with
  | nil => simp only [Memory.erase, Memory.read]; grind
  | cons c m ih =>
    obtain ⟨e, u⟩ := c
    simp only [Memory.erase]
    split
    · rw [ih]; simp only [Memory.read]; grind
    · simp only [Memory.read, ih]; grind

theorem Memory.read_insert (m : Memory) (a b : Nat) (v : Byte) (h : ∀ c ∈ m, c.1 ≠ a) :
    Memory.read d (Memory.insert m a v) b = if b = a then v else Memory.read d m b := by
  induction m with
  | nil => simp [Memory.insert, Memory.read]
  | cons c m ih =>
    obtain ⟨e, u⟩ := c
    have he : e ≠ a := h (e, u) (by simp)
    have ih' := ih fun c hc => h c (by simp [hc])
    simp only [Memory.insert]
    split
    · simp only [Memory.read]
    · simp only [Memory.read, ih']; grind

theorem Memory.mem_erase {m : Memory} {a : Nat} {c : Host.Cell} (h : c ∈ Memory.erase m a) : c ∈ m ∧ c.1 ≠ a := by
  induction m with
  | nil => simp [Memory.erase] at h
  | cons e m ih =>
    obtain ⟨b, u⟩ := e
    simp only [Memory.erase] at h
    split at h
    · exact ⟨List.mem_cons_of_mem _ (ih h).1, (ih h).2⟩
    · rcases List.mem_cons.1 h with rfl | h
      · exact ⟨by simp, by assumption⟩
      · exact ⟨List.mem_cons_of_mem _ (ih h).1, (ih h).2⟩

theorem Memory.mem_insert {m : Memory} {a : Nat} {v : Byte} {c : Host.Cell}
    (h : c ∈ Memory.insert m a v) : c = (a, v) ∨ c ∈ m := by
  induction m with
  | nil => simpa [Memory.insert] using h
  | cons e m ih =>
    obtain ⟨b, u⟩ := e
    simp only [Memory.insert] at h
    split at h
    · simpa using h
    · rcases List.mem_cons.1 h with rfl | h
      · simp
      · rcases ih h with rfl | h <;> simp_all

/-- Read after write, for every memory and every address. -/
theorem Memory.read_write (m : Memory) (a b : Nat) (v : Byte) :
    Memory.read d (Memory.write d m a v) b = if b = a then v else Memory.read d m b := by
  unfold Memory.write
  split
  · rw [Memory.read_erase]; grind
  · rw [Memory.read_insert d _ _ _ _ fun c hc => (Memory.mem_erase hc).2, Memory.read_erase]
    grind

theorem Memory.sorted_erase {m : Memory} (a : Nat) (h : m.Pairwise (fun c e => c.1 < e.1)) :
    (Memory.erase m a).Pairwise (fun c e => c.1 < e.1) := by
  induction m with
  | nil => simp [Memory.erase]
  | cons c m ih =>
    obtain ⟨b, u⟩ := c
    have ⟨h1, h2⟩ := List.pairwise_cons.1 h
    simp only [Memory.erase]
    split
    · exact ih h2
    · exact List.pairwise_cons.2 ⟨fun e he => h1 e (Memory.mem_erase he).1, ih h2⟩

theorem Memory.sorted_insert {m : Memory} (a : Nat) (v : Byte) (h : m.Pairwise (fun c e => c.1 < e.1))
    (ha : ∀ c ∈ m, c.1 ≠ a) : (Memory.insert m a v).Pairwise (fun c e => c.1 < e.1) := by
  induction m with
  | nil => simp [Memory.insert]
  | cons c m ih =>
    obtain ⟨b, u⟩ := c
    have ⟨h1, h2⟩ := List.pairwise_cons.1 h
    have hb : b ≠ a := ha (b, u) (by simp)
    simp only [Memory.insert]
    split
    case isTrue hab =>
      refine List.pairwise_cons.2 ⟨fun e he => ?_, h⟩
      rcases List.mem_cons.1 he with rfl | he
      · exact hab
      · exact lt_trans hab (h1 e he)
    case isFalse hab =>
      refine List.pairwise_cons.2 ⟨fun e he => ?_, ih h2 fun c hc => ha c (by simp [hc])⟩
      rcases Memory.mem_insert he with rfl | he
      · simp only; omega
      · exact h1 e he

/-- A store inside memory keeps the canonical form. -/
theorem Memory.wf_write {m : Memory} (a : Nat) (v : Byte) (ha : a < memSize) (h : Memory.wf d m) :
    Memory.wf d (Memory.write d m a v) := by
  unfold Memory.write
  split
  · exact ⟨Memory.sorted_erase a h.1, fun c hc => h.2 c (Memory.mem_erase hc).1⟩
  case isFalse hv =>
    refine ⟨Memory.sorted_insert a v (Memory.sorted_erase a h.1) fun c hc => (Memory.mem_erase hc).2, fun c hc => ?_⟩
    rcases Memory.mem_insert hc with rfl | hc
    · exact ⟨ha, hv⟩
    · exact h.2 c (Memory.mem_erase hc).1

/-- The reset memory is canonical. -/
theorem Memory.wf_nil : Memory.wf d [] := by simp [Memory.wf]

variable (s : State)

/-! ### One byte of the state -/

theorem State.byteAt_congr {s t : State} (hm : t.mem = s.mem) (hc : t.cfg = s.cfg) (he : t.epoch = s.epoch) :
    t.byteAt = s.byteAt := by
  funext a; simp [State.byteAt, State.dflt, hm, hc, he]

theorem State.byteAt_setByte (a b : Nat) (v : Byte) :
    (s.setByte a v).byteAt b = if b = a then v else s.byteAt b := by
  simp [State.byteAt, Memory.read_write]

theorem State.readByte_of_lt {a : Nat} (h : a < memSize) : s.readByte a = .ok (s.byteAt a) := by
  simp [State.readByte, h]

theorem State.readByte_of_ge {a : Nat} (h : memSize ≤ a) : s.readByte a = .error (.bounds a) := by
  simp [State.readByte, Nat.not_lt.2 h]

theorem State.writeByte_of_lt {a : Nat} (v : Byte) (h : a < memSize) : s.writeByte a v = .ok (s.setByte a v) := by
  simp [State.writeByte, h]

theorem State.writeByte_of_ge {a : Nat} (v : Byte) (h : memSize ≤ a) : s.writeByte a v = .error (.bounds a) := by
  simp [State.writeByte, Nat.not_lt.2 h]

/-! ### Consecutive bytes -/

/-- A block store that succeeds: every byte lies in memory, the block reads back, every other byte and every other field
stays, and the canonical form is kept. -/
theorem State.writeBytes_ok {s t : State} {a : Nat} {vs : List Byte} (h : s.writeBytes a vs = .ok t) :
    (vs = [] ∨ a + vs.length ≤ memSize) ∧
    (∀ k (hk : k < vs.length), t.byteAt (a + k) = vs[k]) ∧
    (∀ b, b < a ∨ a + vs.length ≤ b → t.byteAt b = s.byteAt b) ∧
    t = { s with mem := t.mem } ∧ (Memory.wf s.dflt s.mem → Memory.wf t.dflt t.mem) := by
  induction vs generalizing s a with
  | nil =>
    cases h
    exact ⟨.inl rfl, by simp, fun _ _ => rfl, rfl, id⟩
  | cons v vs ih =>
    by_cases ha : a < memSize
    · rw [State.writeBytes, s.writeByte_of_lt v ha] at h
      obtain ⟨h1, h2, h3, h4, h5⟩ := ih h
      refine ⟨.inr ?_, fun k hk => ?_, fun b hb => ?_, ?_, fun hw => h5 (Memory.wf_write _ a v ha hw)⟩
      · rcases h1 with rfl | h1
        · simpa using ha
        · simp only [List.length_cons]; omega
      · cases k with
        | zero => simp [h3 a (by omega), State.byteAt_setByte]
        | succ k =>
          have := h2 k (by simpa using hk)
          rw [show a + (k + 1) = a + 1 + k by omega, this]; simp
      · rw [h3 b (by simp only [List.length_cons] at hb; omega), State.byteAt_setByte, if_neg]
        simp only [List.length_cons] at hb; omega
      · rw [h4]; rfl
    · rw [State.writeBytes, s.writeByte_of_ge v (by omega)] at h
      cases h

/-- A block store whose bytes all lie in memory succeeds. -/
theorem State.writeBytes_fits {s : State} {a : Nat} {vs : List Byte} (h : a + vs.length ≤ memSize) :
    ∃ t, s.writeBytes a vs = .ok t := by
  induction vs generalizing s a with
  | nil => exact ⟨s, rfl⟩
  | cons v vs ih =>
    simp only [List.length_cons] at h
    rw [State.writeBytes, s.writeByte_of_lt v (by omega)]
    exact ih (by omega)

/-- A block store faults at the first address of the block outside memory. -/
theorem State.writeBytes_faults {s : State} {a j : Nat} {vs : List Byte} (hj : j < vs.length) (hge : memSize ≤ a + j)
    (hlt : ∀ m, m < j → a + m < memSize) : s.writeBytes a vs = .error (.bounds (a + j)) := by
  induction vs generalizing s a j with
  | nil => simp at hj
  | cons v vs ih =>
    cases j with
    | zero => rw [State.writeBytes, s.writeByte_of_ge v (by simpa using hge)]; rfl
    | succ j =>
      rw [State.writeBytes, s.writeByte_of_lt v (by simpa using hlt 0 (by omega))]
      have := ih (s := s.setByte a v) (a := a + 1) (j := j) (by simpa using hj) (by omega) fun m hm => by
        have := hlt (m + 1) (by omega); omega
      rw [show a + (j + 1) = a + 1 + j by omega]; exact this

/-- Every fault of a block store is BoundsFault of an address of the block outside memory. -/
theorem State.writeBytes_error {s : State} {a : Nat} {vs : List Byte} {k : Fault} (h : s.writeBytes a vs = .error k) :
    ∃ j, j < vs.length ∧ memSize ≤ a + j ∧ k = .bounds (a + j) := by
  induction vs generalizing s a with
  | nil => cases h
  | cons v vs ih =>
    by_cases ha : a < memSize
    · rw [State.writeBytes, s.writeByte_of_lt v ha] at h
      obtain ⟨j, h1, h2, h3⟩ := ih h
      exact ⟨j + 1, by simpa using h1, by omega, by rw [h3]; congr 1; omega⟩
    · rw [State.writeBytes, s.writeByte_of_ge v (by omega)] at h
      cases h
      exact ⟨0, by simp, by simpa using ha, rfl⟩

/-- Everything a load does: the image reads back, every other byte and every other field stays, and the canonical form
is kept where the image lies in memory (R61, R62). -/
theorem State.storeImage_spec (s : State) (a : Nat) (bs : List Byte) :
    (∀ k (hk : k < bs.length), (s.storeImage a bs).byteAt (a + k) = bs[k]) ∧
    (∀ b, b < a ∨ a + bs.length ≤ b → (s.storeImage a bs).byteAt b = s.byteAt b) ∧
    s.storeImage a bs = { s with mem := (s.storeImage a bs).mem } ∧
    (a + bs.length ≤ memSize → Memory.wf s.dflt s.mem → Memory.wf (s.storeImage a bs).dflt (s.storeImage a bs).mem) := by
  induction bs generalizing s a with
  | nil => exact ⟨by simp, fun _ _ => rfl, rfl, fun _ h => h⟩
  | cons b bs ih =>
    obtain ⟨h1, h2, h3, h4⟩ := ih (s.setByte a b) (a + 1)
    simp only [List.length_cons]
    refine ⟨fun k hk => ?_, fun c hc => ?_, ?_, fun hl hw => h4 (by omega) (Memory.wf_write _ a b (by omega) hw)⟩
    · cases k with
      | zero => simp [State.storeImage, h2 a (by omega), State.byteAt_setByte]
      | succ k =>
        have := h1 k (by omega)
        rw [State.storeImage, show a + (k + 1) = a + 1 + k by omega, this]; simp
    · rw [State.storeImage, h2 c (by omega), State.byteAt_setByte, if_neg (by omega)]
    · rw [State.storeImage, h3]; rfl

end Sys2Proof.Machine
end

