-- ==== Sys2Proof/Laws/Registers.lean ====
section
/-! SUPPORT. The laws of registers, flags, the call stack, key lookup and the two outcomes of an instruction that may
fault. -/

namespace Sys2Proof.Machine

variable (s : State)

/-! ### Registers -/

/-- A register reads what was last written to it. -/
theorem State.reg_setReg (r q : Reg) (b : Byte) : (s.setReg r b).reg q = if q = r then b else s.reg q := by
  unfold State.reg State.setReg
  rw [Vector.getElem_set]
  by_cases h : r.toNat = q.toNat
  · rw [if_pos h, if_pos (BitVec.eq_of_toNat_eq h).symm]
  · rw [if_neg h, if_neg fun e => h (by rw [e])]

@[simp] theorem State.reg_setReg_self (r : Reg) (b : Byte) : (s.setReg r b).reg r = b := by
  simp [State.reg_setReg]

theorem State.reg_setReg_ne {r q : Reg} (b : Byte) (h : q ≠ r) : (s.setReg r b).reg q = s.reg q := by
  simp [State.reg_setReg, h]

theorem State.reg_congr {s t : State} (h : t.v = s.v) (r : Reg) : t.reg r = s.reg r := by
  simp [State.reg, h]

/-! ### Exact results narrowed to a byte -/

theorem toNat_sum8 (a b : Byte) : (sum8 a b).toNat = (a.toNat + b.toNat) % 256 := by simp [sum8]

theorem toNat_half (a : Byte) : (half a).toNat = a.toNat / 2 := by
  have := a.isLt; simp only [half, BitVec.toNat_ofNat]; omega

theorem toNat_double (a : Byte) : (double a).toNat = a.toNat * 2 % 256 := by simp [double]

theorem toNat_diff8 (a b : Byte) : ((diff8 a b).toNat : Int) = (a.toNat - b.toNat : Int) % 256 := by
  simp only [diff8, BitVec.toNat_ofInt]
  rw [Int.toNat_of_nonneg (Int.emod_nonneg _ (by decide))]; rfl

theorem toNat_flagByte (b : Bool) : (flagByte b).toNat = if b then 1 else 0 := by cases b <;> rfl

theorem toNat_countDown (b : Byte) : (countDown b).toNat = b.toNat - 1 := by
  have := b.isLt
  unfold countDown
  split
  · simp only [BitVec.toNat_ofNat]; omega
  · omega

/-! ### A flag and a destination -/

/-- Everything `setFlagThenReg` does: the destination holds the result, VF the flag unless it is the destination, and
only V changes. -/
theorem State.setFlagThenReg_spec (x : Reg) (f : Bool) (b : Byte) :
    (s.setFlagThenReg x f b).reg x = b ∧ (x ≠ vF → (s.setFlagThenReg x f b).reg vF = flagByte f) ∧
    (∀ r, r ≠ x → r ≠ vF → (s.setFlagThenReg x f b).reg r = s.reg r) ∧
    s.setFlagThenReg x f b = { s with v := (s.setFlagThenReg x f b).v } := by
  refine ⟨by simp [State.setFlagThenReg], fun h => ?_, fun r h1 h2 => ?_, rfl⟩
  · simp [State.setFlagThenReg, State.reg_setReg, Ne.symm h]
  · simp [State.setFlagThenReg, State.reg_setReg, h1, h2]

/-- Everything `setFlagAndRegFree` does: one draw for each register written, and only V and the draw counter change. -/
theorem State.setFlagAndRegFree_spec (x : Reg) :
    (s.setFlagAndRegFree x).reg vF = Config.freeByte s.draws ∧
    (x ≠ vF → (s.setFlagAndRegFree x).reg x = Config.freeByte (s.draws + 1)) ∧
    (∀ r, r ≠ x → r ≠ vF → (s.setFlagAndRegFree x).reg r = s.reg r) ∧
    s.setFlagAndRegFree x =
      { s with v := (s.setFlagAndRegFree x).v, draws := if x = vF then s.draws + 1 else s.draws + 2 } := by
  by_cases hx : x = vF
  · simp only [State.setFlagAndRegFree, hx, if_true]
    refine ⟨by simp [State.draw], fun h => absurd rfl h, fun r _ h2 => ?_, rfl⟩
    rw [State.reg_setReg_ne _ _ h2]; rfl
  · simp only [State.setFlagAndRegFree, hx, if_false]
    refine ⟨?_, fun _ => by simp [State.draw], fun r h1 h2 => ?_, rfl⟩
    · rw [State.reg_setReg_ne _ _ (Ne.symm hx)]
      exact (State.reg_setReg_self s.draw.2 vF s.draw.1)
    · rw [State.reg_setReg_ne _ _ h1]
      exact State.reg_setReg_ne s.draw.2 _ h2

/-- `writeFlagged` writes the flag and the result where VF_ALIAS leaves nothing free. -/
theorem State.writeFlagged_exact {x : Reg} {al : Bool} (f : Bool) (b : Byte)
    (h : s.cfg.vfAlias = .operandsFirst ∨ al = false) : s.writeFlagged x al f b = s.setFlagThenReg x f b := by
  unfold State.writeFlagged
  cases hc : s.cfg.vfAlias with
  | operandsFirst => rfl
  | any =>
    have : al = false := by rcases h with h | h <;> simp_all
    simp [this]

/-- `writeFlagged` leaves free values where VF_ALIAS says so. -/
theorem State.writeFlagged_free {x : Reg} (f : Bool) (b : Byte) (h : s.cfg.vfAlias = .any) :
    s.writeFlagged x true f b = s.setFlagAndRegFree x := by
  simp [State.writeFlagged, h]

/-- What `writeFlagged` leaves unchanged in every case. -/
theorem State.writeFlagged_frame (x : Reg) (al f : Bool) (b : Byte) :
    (∀ r, r ≠ x → r ≠ vF → (s.writeFlagged x al f b).reg r = s.reg r) ∧
    s.writeFlagged x al f b =
      { s with v := (s.writeFlagged x al f b).v, draws := (s.writeFlagged x al f b).draws } ∧
    (s.cfg.vfAlias = .operandsFirst → (s.writeFlagged x al f b).draws = s.draws) := by
  cases hc : s.cfg.vfAlias with
  | operandsFirst =>
    rw [s.writeFlagged_exact f b (.inl hc)]
    have h := s.setFlagThenReg_spec x f b
    exact ⟨h.2.2.1, rfl, fun _ => rfl⟩
  | any =>
    cases al with
    | false =>
      rw [s.writeFlagged_exact f b (.inr rfl)]
      have h := s.setFlagThenReg_spec x f b
      exact ⟨h.2.2.1, rfl, fun _ => rfl⟩
    | true =>
      rw [s.writeFlagged_free f b hc]
      have h := s.setFlagAndRegFree_spec x
      refine ⟨h.2.2.1, ?_, fun h => by cases h⟩
      conv_lhs => rw [h.2.2.2]
      congr 1
      conv_rhs => rw [h.2.2.2]

/-! ### writeFlagged, field by field -/

variable (x : Reg) (al f : Bool) (b : Byte)

@[simp] theorem State.writeFlagged_cfg : (s.writeFlagged x al f b).cfg = s.cfg := by
  rw [(s.writeFlagged_frame x al f b).2.1]
@[simp] theorem State.writeFlagged_i : (s.writeFlagged x al f b).i = s.i := by
  rw [(s.writeFlagged_frame x al f b).2.1]
@[simp] theorem State.writeFlagged_pc : (s.writeFlagged x al f b).pc = s.pc := by
  rw [(s.writeFlagged_frame x al f b).2.1]
@[simp] theorem State.writeFlagged_sp : (s.writeFlagged x al f b).sp = s.sp := by
  rw [(s.writeFlagged_frame x al f b).2.1]
@[simp] theorem State.writeFlagged_stack : (s.writeFlagged x al f b).stack = s.stack := by
  rw [(s.writeFlagged_frame x al f b).2.1]
@[simp] theorem State.writeFlagged_dt : (s.writeFlagged x al f b).dt = s.dt := by
  rw [(s.writeFlagged_frame x al f b).2.1]
@[simp] theorem State.writeFlagged_st : (s.writeFlagged x al f b).st = s.st := by
  rw [(s.writeFlagged_frame x al f b).2.1]
@[simp] theorem State.writeFlagged_mem : (s.writeFlagged x al f b).mem = s.mem := by
  rw [(s.writeFlagged_frame x al f b).2.1]
@[simp] theorem State.writeFlagged_fb : (s.writeFlagged x al f b).fb = s.fb := by
  rw [(s.writeFlagged_frame x al f b).2.1]
@[simp] theorem State.writeFlagged_keys : (s.writeFlagged x al f b).keys = s.keys := by
  rw [(s.writeFlagged_frame x al f b).2.1]
@[simp] theorem State.writeFlagged_w : (s.writeFlagged x al f b).w = s.w := by
  rw [(s.writeFlagged_frame x al f b).2.1]
@[simp] theorem State.writeFlagged_fault : (s.writeFlagged x al f b).fault = s.fault := by
  rw [(s.writeFlagged_frame x al f b).2.1]
@[simp] theorem State.writeFlagged_epoch : (s.writeFlagged x al f b).epoch = s.epoch := by
  rw [(s.writeFlagged_frame x al f b).2.1]

/-! ### Outcomes -/

/-- An instruction that may fault answers a next state: its effect, or fault entry from where it began. -/
theorem settle_cases {r : Except Fault State} {t : State} (h : settle s r = .next t) :
    r = .ok t ∨ ∃ k, r = .error k ∧ t = s.takeFault k := by
  cases r with
  | ok u => cases h; exact .inl rfl
  | error k => cases h; exact .inr ⟨k, rfl, rfl⟩

@[simp] theorem settle_ok (t : State) : settle s (.ok t) = .next t := rfl

@[simp] theorem settle_error (k : Fault) : settle s (.error k) = .next (s.takeFault k) := rfl

theorem settle_answers (r : Except Fault State) : ∃ t, settle s r = .next t := by cases r <;> exact ⟨_, rfl⟩

/-! ### Skips and the stack -/

/-- A conditional skip adds 2 to PC or nothing. -/
theorem State.skipIf_eq (b : Bool) : s.skipIf b = if b then { s with pc := s.pc + 2#16 } else s := rfl

/-- A conditional skip changes only PC. -/
theorem State.skipIf_frame (b : Bool) : s.skipIf b = { s with pc := (s.skipIf b).pc } := by cases b <;> rfl

theorem State.push_ok (a : Word) (h : s.sp.val < stackDepth) :
    s.push a = .ok { s with stack := s.stack.set s.sp.val a h, sp := ⟨s.sp.val + 1, by omega⟩ } := by
  simp [State.push, h]

theorem State.push_full (a : Word) (h : s.sp.val = stackDepth) : s.push a = .error .stackOverflow := by
  simp [State.push, h]

theorem State.pop_ok (h : 0 < s.sp.val) :
    s.pop = .ok (s.stack[s.sp.val - 1]'(by have := s.sp.isLt; omega), { s with sp := ⟨s.sp.val - 1, by omega⟩ }) := by
  simp [State.pop, h]

theorem State.pop_empty (h : s.sp.val = 0) : s.pop = .error .stackUnderflow := by simp [State.pop, h]

/-! ### Keys -/

theorem State.keyIndex_ok {x : Reg} (k : Fin numKeys) (h : (s.reg x).toNat = k.val) : s.keyIndex x = .ok k := by
  have : (s.reg x).toNat < numKeys := by omega
  simp only [State.keyIndex, this, dif_pos]
  congr 1; exact Fin.ext h

theorem State.keyIndex_error {x : Reg} (h : numKeys ≤ (s.reg x).toNat) :
    s.keyIndex x = .error (.keyRange (s.reg x)) := by
  simp [State.keyIndex, Nat.not_lt.2 h]

/-- The scan finds the lowest pressed key. -/
theorem State.firstKey_some (k : Fin numKeys) (h : s.keys[k.val] = true)
    (hlow : ∀ m : Fin numKeys, m.val < k.val → s.keys[m.val] = false) : s.firstKey = some k := by
  unfold State.firstKey
  rw [List.find?_eq_some_iff_getElem]
  refine ⟨h, k.val, by simp, by simp, fun j hj => ?_⟩
  have := hlow ⟨j, by omega⟩ hj
  simpa [State.key] using this

/-- The scan finds nothing where no key is pressed. -/
theorem State.firstKey_none (h : ∀ m : Fin numKeys, s.keys[m.val] = false) : s.firstKey = none := by
  unfold State.firstKey
  rw [List.find?_eq_none]
  intro m _
  simp [State.key, h m]

end Sys2Proof.Machine
end

