-- ==== Sys2Proof/Laws/Blocks.lean ====
section
/-! SUPPORT. The register load, and the lists the block stores write. -/

namespace Sys2Proof.Machine

/-- A list of indices up to `n`, split at `k`. -/
theorem range_split {n k : Nat} (h : k < n) : List.range n = List.range k ++ k :: List.range' (k + 1) (n - k - 1) := by
  have : n = k + ((n - k - 1) + 1) := by omega
  rw [List.range_eq_range', List.range_eq_range']
  conv_lhs => rw [this]
  rw [← List.range'_append_1, Nat.zero_add, List.range'_succ]

theorem ofNat_toNat_reg (r : Reg) : BitVec.ofNat 4 r.toNat = r := by simp

@[simp] theorem State.length_regsUpTo (s : State) (x : Reg) : (s.regsUpTo x).length = x.toNat + 1 := by
  simp [State.regsUpTo]

theorem State.getElem_regsUpTo (s : State) (x r : Reg) (h : r.toNat < (s.regsUpTo x).length) :
    (s.regsUpTo x)[r.toNat] = s.reg r := by
  simp [State.regsUpTo]

/-- A register load that succeeds: every named register holds its byte, the others stay, and only V changes. -/
theorem State.loadRegs_ok {s t : State} {ks : List Nat} (h : s.loadRegs ks = .ok t) (hb : ∀ k ∈ ks, k < 16) :
    (∀ k ∈ ks, s.indexAddr k < memSize ∧ t.reg (BitVec.ofNat 4 k) = s.byteAt (s.indexAddr k)) ∧
    (∀ r : Reg, r.toNat ∉ ks → t.reg r = s.reg r) ∧ t = { s with v := t.v } := by
  induction ks generalizing s with
  | nil => cases h; exact ⟨by simp, fun _ _ => rfl, rfl⟩
  | cons k ks ih =>
    by_cases hk : s.indexAddr k < memSize
    · rw [State.loadRegs, s.readByte_of_lt hk] at h
      obtain ⟨h1, h2, h3⟩ := ih h fun m hm => hb m (List.mem_cons_of_mem _ hm)
      have hk16 : k < 16 := hb k (by simp)
      have hkn : (BitVec.ofNat 4 k).toNat = k := by simp; omega
      refine ⟨fun m hm => ?_, fun r hr => ?_, ?_⟩
      · by_cases hin : m ∈ ks
        · exact h1 m hin
        · have hmk : m = k := by simpa [hin] using hm
          subst hmk
          refine ⟨hk, ?_⟩
          rw [h2 _ (by rwa [hkn]), State.reg_setReg_self]
      · rw [h2 r fun hm => hr (List.mem_cons_of_mem _ hm), State.reg_setReg_ne]
        intro he; exact hr (by rw [he, hkn]; simp)
      · rw [h3]; rfl
    · rw [State.loadRegs, s.readByte_of_ge (Nat.not_lt.1 hk)] at h
      cases h

/-- A register load whose addresses all lie in memory succeeds. -/
theorem State.loadRegs_fits {s : State} {ks : List Nat} (h : ∀ k ∈ ks, s.indexAddr k < memSize) :
    ∃ t, s.loadRegs ks = .ok t := by
  induction ks generalizing s with
  | nil => exact ⟨s, rfl⟩
  | cons k ks ih =>
    rw [State.loadRegs, s.readByte_of_lt (h k (by simp))]
    exact ih fun m hm => h m (List.mem_cons_of_mem _ hm)

/-- A register load faults at the first of its addresses outside memory. -/
theorem State.loadRegs_faults {s : State} (as bs : List Nat) (k : Nat) (h : ∀ m ∈ as, s.indexAddr m < memSize)
    (hk : memSize ≤ s.indexAddr k) : s.loadRegs (as ++ k :: bs) = .error (.bounds (s.indexAddr k)) := by
  induction as generalizing s with
  | nil => rw [List.nil_append, State.loadRegs, s.readByte_of_ge hk]
  | cons m as ih =>
    rw [List.cons_append, State.loadRegs, s.readByte_of_lt (h m (by simp))]
    exact ih (s := s.setReg (BitVec.ofNat 4 m) _) (fun q hq => h q (List.mem_cons_of_mem _ hq)) hk

/-- Every fault of a register load is BoundsFault of one of its addresses outside memory. -/
theorem State.loadRegs_error {s : State} {ks : List Nat} {e : Fault} (h : s.loadRegs ks = .error e) :
    ∃ k ∈ ks, memSize ≤ s.indexAddr k ∧ e = .bounds (s.indexAddr k) := by
  induction ks generalizing s with
  | nil => cases h
  | cons k ks ih =>
    by_cases hk : s.indexAddr k < memSize
    · rw [State.loadRegs, s.readByte_of_lt hk] at h
      obtain ⟨m, hm, h'⟩ := ih h
      exact ⟨m, List.mem_cons_of_mem _ hm, h'⟩
    · rw [State.loadRegs, s.readByte_of_ge (Nat.not_lt.1 hk)] at h
      cases h; exact ⟨k, by simp, Nat.not_lt.1 hk, rfl⟩

end Sys2Proof.Machine
end

