-- ==== Sys2Proof/Laws/Decode.lean ====
section
/-! SUPPORT. The fields of packed words and the bytes of a stored word. -/

namespace Sys2Proof

/-! ### Bits of packed words -/

theorem getLsbD_packAddr (f : BitVec 4) (a : Addr12) (k : Nat) :
    (packAddr f a).getLsbD k = if k < 12 then a.getLsbD k else f.getLsbD (k - 12) := by
  unfold packAddr
  exact BitVec.getLsbD_append

theorem getLsbD_packRegByte (f x : BitVec 4) (b : Byte) (k : Nat) :
    (packRegByte f x b).getLsbD k =
      if k < 8 then b.getLsbD k else if k < 12 then x.getLsbD (k - 8) else f.getLsbD (k - 12) := by
  unfold packRegByte
  erw [BitVec.getLsbD_append, BitVec.getLsbD_append]
  by_cases h : k < 8
  · simp [h]
  · by_cases h' : k < 12
    · have : k - 8 < 4 := by omega
      simp [h, h', this]
    · have : ¬ k - 8 < 4 := by omega
      have e : k - 8 - 4 = k - 12 := by omega
      simp [h, h', this, e]

theorem getLsbD_packRegs (f x y n : BitVec 4) (k : Nat) :
    (packRegs f x y n).getLsbD k =
      if k < 4 then n.getLsbD k else if k < 8 then y.getLsbD (k - 4)
      else if k < 12 then x.getLsbD (k - 8) else f.getLsbD (k - 12) := by
  unfold packRegs
  erw [BitVec.getLsbD_append, BitVec.getLsbD_append, BitVec.getLsbD_append]
  by_cases h : k < 4
  · simp [h]
  · by_cases h' : k < 8
    · have : k - 4 < 4 := by omega
      simp [h, h', this]
    · by_cases h'' : k < 12
      · have h1 : ¬ k - 4 < 4 := by omega
        have h2 : k - 4 - 4 < 4 := by omega
        have e : k - 4 - 4 = k - 8 := by omega
        have h3 : k - 8 < 4 := by omega
        simp [h, h', h'', h1, e, h3]
      · have h1 : ¬ k - 4 < 4 := by omega
        have h2 : ¬ k - 4 - 4 < 4 := by omega
        have e : k - 4 - 4 - 4 = k - 12 := by omega
        simp [h, h', h'', h1, h2, e]

/-! ### Fields of packed words -/

@[simp] theorem family_packAddr (f : BitVec 4) (a : Addr12) : family (packAddr f a) = f := by
  ext i hi
  simp [family, getLsbD_packAddr, BitVec.getLsbD_eq_getElem, hi]

@[simp] theorem fieldNNN_packAddr (f : BitVec 4) (a : Addr12) : fieldNNN (packAddr f a) = a := by
  ext i hi
  simp [fieldNNN, getLsbD_packAddr, hi]

@[simp] theorem family_packRegByte (f x : BitVec 4) (b : Byte) : family (packRegByte f x b) = f := by
  ext i hi
  have : ¬ 12 + i < 8 := by omega
  simp [family, getLsbD_packRegByte, BitVec.getLsbD_eq_getElem, hi, this]

@[simp] theorem fieldX_packRegByte (f x : BitVec 4) (b : Byte) : fieldX (packRegByte f x b) = x := by
  ext i hi
  have : 8 + i < 12 := by omega
  simp [fieldX, getLsbD_packRegByte, BitVec.getLsbD_eq_getElem, hi, this]

@[simp] theorem fieldKK_packRegByte (f x : BitVec 4) (b : Byte) : fieldKK (packRegByte f x b) = b := by
  ext i hi
  simp [fieldKK, getLsbD_packRegByte, hi]

@[simp] theorem fieldN_packRegByte (f x : BitVec 4) (b : Byte) : fieldN (packRegByte f x b) = b.extractLsb' 0 4 := by
  ext i hi
  have h2 : i < 8 := by omega
  simp [fieldN, getLsbD_packRegByte, BitVec.getLsbD_eq_getElem, h2]

@[simp] theorem family_packRegs (f x y n : BitVec 4) : family (packRegs f x y n) = f := by
  ext i hi
  have h1 : ¬ 12 + i < 4 := by omega
  have h2 : ¬ 12 + i < 8 := by omega
  simp [family, getLsbD_packRegs, BitVec.getLsbD_eq_getElem, hi, h1, h2]

@[simp] theorem fieldX_packRegs (f x y n : BitVec 4) : fieldX (packRegs f x y n) = x := by
  ext i hi
  have h1 : ¬ 8 + i < 4 := by omega
  have h2 : 8 + i < 12 := by omega
  simp [fieldX, getLsbD_packRegs, BitVec.getLsbD_eq_getElem, hi, h1, h2]

@[simp] theorem fieldY_packRegs (f x y n : BitVec 4) : fieldY (packRegs f x y n) = y := by
  ext i hi
  have h2 : 4 + i < 8 := by omega
  simp [fieldY, getLsbD_packRegs, BitVec.getLsbD_eq_getElem, hi, h2]

@[simp] theorem fieldN_packRegs (f x y n : BitVec 4) : fieldN (packRegs f x y n) = n := by
  ext i hi
  simp [fieldN, getLsbD_packRegs, hi]

/-! ### Words written field by field are packed words -/

theorem addrWord_eq (f : BitVec 4) (a : Addr12) : (f ++ a : Word) = packAddr f a := rfl

theorem regByteWord_eq (f x : BitVec 4) (b : Byte) : (f ++ x ++ b : Word) = packRegByte f x b := rfl

theorem regsWord_eq (f x y n : BitVec 4) : (f ++ x ++ y ++ n : Word) = packRegs f x y n := rfl

/-! ### The bytes of a stored word -/

/-- The exact value of a big-endian word (R10, R45). -/
theorem toNat_wordOfBytes (hi lo : Byte) : (wordOfBytes hi lo).toNat = hi.toNat * 256 + lo.toNat := by
  have := lo.isLt
  unfold wordOfBytes
  erw [BitVec.toNat_append]
  rw [Nat.shiftLeft_eq, ← Nat.shiftLeft_eq, ← Nat.shiftLeft_add_eq_or_of_lt this, Nat.shiftLeft_eq]

/-- A word put into two bytes reads back. -/
theorem wordOfBytes_high_low (w : Word) : wordOfBytes (highByte w) (lowByte w) = w := by
  apply BitVec.eq_of_toNat_eq
  have := w.isLt
  rw [toNat_wordOfBytes]
  simp only [highByte, lowByte, BitVec.extractLsb'_toNat, Nat.shiftRight_eq_div_pow]
  omega

/-- Decoding two bytes decodes their big-endian word and gives the rest back (R45, R63). -/
theorem decode_cons (hi lo : Byte) (rest : List Byte) :
    decode (hi :: lo :: rest) = .ok (decodeWord (wordOfBytes hi lo), rest) := rfl

end Sys2Proof
end

