-- ==== Sys2Proof/Laws/Cycle.lean ====
section
/-! SUPPORT. The fetch, the end of a cycle, and everything one cycle can do. -/

namespace Sys2Proof.Machine

variable (s : State)

/-! ### The fetch -/

/-- A fetch succeeds exactly where both bytes lie in memory, and gives their big-endian word (R45, R70). -/
theorem State.fetch_eq_ok {s : State} {w : Word} :
    s.fetch = .ok w ↔
      s.pc.toNat + 1 < memSize ∧ w = wordOfBytes (s.byteAt s.pc.toNat) (s.byteAt (s.pc.toNat + 1)) := by
  unfold State.fetch State.readByte wordOfBytes
  by_cases h : s.pc.toNat + 1 < memSize
  · have h' : s.pc.toNat < memSize := by omega
    simp only [h, h', if_true, true_and, Except.ok.injEq]; exact eq_comm
  · by_cases h' : s.pc.toNat < memSize <;> simp [h, h']

theorem State.fetch_of_lt (h : s.pc.toNat + 1 < memSize) :
    s.fetch = .ok (wordOfBytes (s.byteAt s.pc.toNat) (s.byteAt (s.pc.toNat + 1))) :=
  State.fetch_eq_ok.2 ⟨h, rfl⟩

/-- A fetch that fails reports the first of its two addresses outside memory (R146). -/
theorem State.fetch_eq_error {s : State} {k : Fault} (h : s.fetch = .error k) :
    (memSize ≤ s.pc.toNat ∧ k = .bounds s.pc.toNat) ∨
      (s.pc.toNat + 1 = memSize ∧ k = .bounds memSize) := by
  by_cases h0 : s.pc.toNat < memSize
  · by_cases h1 : s.pc.toNat + 1 < memSize
    · rw [s.fetch_of_lt h1] at h; cases h
    · have e : s.pc.toNat + 1 = memSize := by omega
      rw [State.fetch, s.readByte_of_lt h0] at h
      simp only [s.readByte_of_ge (Nat.not_lt.1 h1)] at h
      cases h; exact .inr ⟨e, by rw [e]⟩
  · rw [State.fetch, s.readByte_of_ge (Nat.not_lt.1 h0)] at h
    cases h; exact .inl ⟨Nat.not_lt.1 h0, rfl⟩

/-- The fetch depends on PC and the two bytes there alone. -/
theorem State.fetch_congr {s t : State} (hp : t.pc = s.pc) (hb : ∀ a, t.byteAt a = s.byteAt a) :
    t.fetch = s.fetch := by
  simp [State.fetch, State.readByte, hp, hb]

/-! ### The end of a cycle -/

/-- The end of a cycle after an operation that raised no fault, under PER_CYCLE: one tick. -/
theorem State.endCycle_tick {s : State} (hf : s.fault = none) (hm : s.cfg.timerMode = .perCycle) :
    s.endCycle = { s with w := none, dt := countDown s.dt, st := countDown s.st } := by
  simp [State.endCycle, hm, State.halted, hf, State.timerTick]

/-- The end of a cycle that ticks nothing: after a fault, or under EXTERNAL. -/
theorem State.endCycle_still {s : State} (h : s.fault ≠ none ∨ s.cfg.timerMode = .external) :
    s.endCycle = { s with w := none } := by
  unfold State.endCycle
  cases hm : s.cfg.timerMode with
  | external => rfl
  | perCycle =>
    have : s.fault ≠ none := by simpa [hm] using h
    simp [State.halted, Option.isSome_iff_ne_none, this]

/-- Whatever ends, only W and the timers change. -/
theorem State.endCycle_frame : s.endCycle = { s with w := none, dt := s.endCycle.dt, st := s.endCycle.st } := by
  unfold State.endCycle
  cases s.cfg.timerMode <;> cases s.halted <;> rfl

@[simp] theorem State.endCycle_w : s.endCycle.w = none := by rw [State.endCycle_frame]
@[simp] theorem State.endCycle_fault : s.endCycle.fault = s.fault := by rw [State.endCycle_frame]
@[simp] theorem State.endCycle_pc : s.endCycle.pc = s.pc := by rw [State.endCycle_frame]
@[simp] theorem State.endCycle_cfg : s.endCycle.cfg = s.cfg := by rw [State.endCycle_frame]
@[simp] theorem State.endCycle_epoch : s.endCycle.epoch = s.epoch := by rw [State.endCycle_frame]
@[simp] theorem State.endCycle_mem : s.endCycle.mem = s.mem := by rw [State.endCycle_frame]
@[simp] theorem State.endCycle_stack : s.endCycle.stack = s.stack := by rw [State.endCycle_frame]
@[simp] theorem State.endCycle_sp : s.endCycle.sp = s.sp := by rw [State.endCycle_frame]
@[simp] theorem State.endCycle_v : s.endCycle.v = s.v := by rw [State.endCycle_frame]
@[simp] theorem State.endCycle_keys : s.endCycle.keys = s.keys := by rw [State.endCycle_frame]

/-! ### One cycle -/

theorem State.halted_iff : s.halted = true ↔ s.fault ≠ none := by
  simp [State.halted, Option.isSome_iff_ne_none]

theorem step_halted {s : State} (h : s.fault ≠ none) : step s = .next s := by
  simp [step, (s.halted_iff).2 h]

theorem step_fetch_fault {s : State} {k : Fault} (h : s.fault = none) (hf : s.fetch = .error k) :
    step s = .next (s.enterFault k s.pc none) := by
  simp [step, State.halted, h, hf]

theorem step_runs {s t : State} {w : Word} (h : s.fault = none) (hf : s.fetch = .ok w)
    (he : exec (decodeWord w) (s.latch w) = .next t) : step s = .next t.endCycle := by
  simp [step, State.halted, h, hf, he]

/-- Everything a cycle that answers a next state can have done. -/
theorem step_cases {s t : State} (h : step s = .next t) :
    (s.fault ≠ none ∧ t = s) ∨
    (s.fault = none ∧ ∃ k, s.fetch = .error k ∧ t = s.enterFault k s.pc none) ∨
    (s.fault = none ∧ ∃ w u, s.fetch = .ok w ∧ exec (decodeWord w) (s.latch w) = .next u ∧ t = u.endCycle) := by
  by_cases hh : s.fault = none
  · cases hf : s.fetch with
    | error k =>
      rw [step_fetch_fault hh hf] at h; cases h
      exact .inr (.inl ⟨hh, k, rfl, rfl⟩)
    | ok w =>
      have hs : s.halted = false := by simp [State.halted, hh]
      simp only [step, hs, hf] at h
      cases he : exec (decodeWord w) (s.latch w) with
      | next u =>
        simp only [he] at h; cases h
        exact .inr (.inr ⟨hh, w, u, rfl, he, rfl⟩)
      | fault r => simp [he] at h
      | refused r => simp [he] at h
  · rw [step_halted hh] at h; cases h; exact .inl ⟨hh, rfl⟩

end Sys2Proof.Machine
end

