-- ==== Sys2Proof/Laws/Display.lean ====
section
/-! SUPPORT. The framebuffer and the sprite blit: a draw that does not fault is a fold of single-cell XORs over the cells
its set bits land on, no cell twice, and a draw that faults does so at the first row that does not fit. -/

namespace Sys2Proof.Machine

/-- A cell of the framebuffer. -/
abbrev Cell := Fin fbHeight × Fin fbWidth

/-! ### Cells -/

theorem Framebuffer.get_flip (fb : Framebuffer) (r q : Fin fbHeight) (c e : Fin fbWidth) :
    Framebuffer.get (Framebuffer.flip fb r c) q e =
      if q = r ∧ e = c then !Framebuffer.get fb q e else Framebuffer.get fb q e := by
  unfold Framebuffer.get Framebuffer.flip
  by_cases hr : r.val = q.val
  · have hr' : q = r := Fin.ext hr.symm
    subst hr'
    by_cases hc : c.val = e.val
    · have hc' : e = c := Fin.ext hc.symm
      subst hc'; simp
    · have : ¬ e = c := fun h => hc (by rw [h])
      simp [this, hc]
  · have : ¬ q = r := fun h => hr (by rw [h])
    simp [this, hr]

@[simp] theorem get_clearFramebuffer (r : Fin fbHeight) (c : Fin fbWidth) :
    Framebuffer.get clearFramebuffer r c = false := by
  simp [Framebuffer.get, clearFramebuffer]

/-- Framebuffers with equal cells are equal. -/
theorem Framebuffer.ext_get {a b : Framebuffer} (h : ∀ r c, Framebuffer.get a r c = Framebuffer.get b r c) : a = b := by
  apply Vector.ext; intro r hr
  apply Vector.ext; intro c hc
  exact h ⟨r, hr⟩ ⟨c, hc⟩

/-! ### Where a bit lands -/

/-- The cell a set bit is drawn on, where it does not fault; `none` where it is dropped. -/
def target (edge : DrawEdge) (ry cx : Nat) : Option Cell :=
  match place edge ry cx with
  | .ok cell => cell
  | .error _ => none

theorem target_eq_some {edge : DrawEdge} {ry cx : Nat} {r : Fin fbHeight} {c : Fin fbWidth} :
    target edge ry cx = some (r, c) ↔ landsOn edge ry cx r c := by
  obtain ⟨r, hr⟩ := r
  obtain ⟨c, hc⟩ := c
  cases edge <;> simp only [target, place, landsOn] <;> grind

/-- `Place` faults exactly outside the framebuffer under `DRAW_EDGE = FAULT`. -/
theorem place_eq (edge : DrawEdge) (ry cx : Nat) :
    place edge ry cx = if edge = .fault ∧ (fbHeight ≤ ry ∨ fbWidth ≤ cx) then .error (.drawBounds cx ry)
      else .ok (target edge ry cx) := by
  cases edge <;> simp only [target, place] <;> grind

/-! ### A fold of single-cell XORs -/

/-- XOR the given cells one after another. -/
def Canvas.plots (d : Canvas) (cells : List Cell) : Canvas := cells.foldl (fun e c => e.plot (some c)) d

@[simp] theorem Canvas.plots_nil (d : Canvas) : d.plots [] = d := rfl

@[simp] theorem Canvas.plots_cons (d : Canvas) (c : Cell) (cs : List Cell) :
    d.plots (c :: cs) = (d.plot (some c)).plots cs := rfl

theorem Canvas.plots_append (d : Canvas) (as bs : List Cell) : d.plots (as ++ bs) = (d.plots as).plots bs := by
  simp [Canvas.plots, List.foldl_append]

/-- With no cell twice, exactly the given cells are inverted. -/
theorem Canvas.get_plots {cells : List Cell} (h : cells.Nodup) (d : Canvas) (r : Fin fbHeight) (c : Fin fbWidth) :
    Framebuffer.get (d.plots cells).fb r c =
      if (r, c) ∈ cells then !Framebuffer.get d.fb r c else Framebuffer.get d.fb r c := by
  induction cells generalizing d with
  | nil => simp
  | cons e cells ih =>
    obtain ⟨he, hn⟩ := List.nodup_cons.1 h
    rw [Canvas.plots_cons, ih hn]
    simp only [Canvas.plot, Framebuffer.get_flip]
    grind

/-- With no cell twice, a collision is seen exactly if one of the given cells was on at the start. -/
theorem Canvas.collision_plots {cells : List Cell} (h : cells.Nodup) (d : Canvas) :
    (d.plots cells).collision = true ↔
      d.collision = true ∨ ∃ r c, (r, c) ∈ cells ∧ Framebuffer.get d.fb r c = true := by
  induction cells generalizing d with
  | nil => simp
  | cons e cells ih =>
    obtain ⟨he, hn⟩ := List.nodup_cons.1 h
    obtain ⟨r, c⟩ := e
    rw [Canvas.plots_cons, ih hn]
    simp only [Canvas.plot, Framebuffer.get_flip, Bool.or_eq_true, List.mem_cons, Prod.mk.injEq]
    constructor
    · rintro ((h1 | h1) | ⟨q, f, h1, h2⟩)
      · exact .inl h1
      · exact .inr ⟨r, c, .inl ⟨rfl, rfl⟩, h1⟩
      · have : ¬ (q = r ∧ f = c) := by rintro ⟨rfl, rfl⟩; exact he h1
        rw [if_neg this] at h2
        exact .inr ⟨q, f, .inr h1, h2⟩
    · rintro (h1 | ⟨q, f, ⟨rfl, rfl⟩ | h1, h2⟩)
      · exact .inl (.inl h1)
      · exact .inl (.inr h2)
      · have : ¬ (q = r ∧ f = c) := by rintro ⟨rfl, rfl⟩; exact he h1
        exact .inr ⟨q, f, h1, by rw [if_neg this]; exact h2⟩

/-! ### One row -/

/-- The cells the given columns of a row are drawn on. -/
def rowCells (edge : DrawEdge) (ry xo : Nat) (byte : Byte) (cs : List Nat) : List Cell :=
  (cs.filter (spriteBit byte)).filterMap fun c => target edge ry (xo + c)

/-- A row none of whose set bits faults plots its cells. -/
theorem drawRow_ok {edge : DrawEdge} {ry xo : Nat} {byte : Byte} {cs : List Nat} (d : Canvas)
    (h : ∀ c ∈ cs, spriteBit byte c = true → ¬ (edge = .fault ∧ (fbHeight ≤ ry ∨ fbWidth ≤ xo + c))) :
    drawRow edge ry xo byte cs d = .ok (d.plots (rowCells edge ry xo byte cs)) := by
  induction cs generalizing d with
  | nil => rfl
  | cons c cs ih =>
    have ih' := fun e => ih e fun k hk => h k (List.mem_cons_of_mem _ hk)
    by_cases hb : spriteBit byte c
    · have hp := place_eq edge ry (xo + c)
      rw [if_neg (h c (by simp) hb)] at hp
      simp only [drawRow, hb, if_true, hp, ih', rowCells, List.filter_cons_of_pos, List.filterMap_cons]
      cases target edge ry (xo + c) <;> rfl
    · simp only [drawRow, hb, ih', rowCells]
      rw [List.filter_cons_of_neg hb]; rfl

/-- A row faults at its first set bit that faults. -/
theorem drawRow_faults {edge : DrawEdge} {ry xo : Nat} {byte : Byte} (as bs : List Nat) (c : Nat) (d : Canvas)
    (h : ∀ k ∈ as, spriteBit byte k = true → ¬ (edge = .fault ∧ (fbHeight ≤ ry ∨ fbWidth ≤ xo + k)))
    (hb : spriteBit byte c = true) (he : edge = .fault) (hc : fbHeight ≤ ry ∨ fbWidth ≤ xo + c) :
    drawRow edge ry xo byte (as ++ c :: bs) d = .error (.drawBounds (xo + c) ry) := by
  induction as generalizing d with
  | nil =>
    have hp := place_eq edge ry (xo + c)
    rw [if_pos ⟨he, hc⟩] at hp
    simp [drawRow, hb, hp]
  | cons k as ih =>
    have ih' := fun e => ih e fun m hm => h m (List.mem_cons_of_mem _ hm)
    by_cases hk : spriteBit byte k
    · have hp := place_eq edge ry (xo + k)
      rw [if_neg (h k (by simp) hk)] at hp
      simp [drawRow, hk, hp, ih']
    · simp [drawRow, hk, ih']

/-- Every fault of a row is DrawBoundsFault under `DRAW_EDGE = FAULT`, of a place outside the framebuffer. -/
theorem drawRow_error {edge : DrawEdge} {ry xo : Nat} {byte : Byte} {cs : List Nat} {d : Canvas} {k : Fault}
    (h : drawRow edge ry xo byte cs d = .error k) :
    edge = .fault ∧ ∃ col row, (fbWidth ≤ col ∨ fbHeight ≤ row) ∧ k = .drawBounds col row := by
  induction cs generalizing d with
  | nil => cases h
  | cons c cs ih =>
    simp only [drawRow] at h
    split at h
    · rw [place_eq] at h
      split at h
      · exact ih h
      · rename_i e he
        split at he
        · cases he; cases h; rename_i hc
          exact ⟨hc.1, _, _, hc.2.symm, rfl⟩
        · cases he
    · exact ih h

/-! ### The sprite -/

variable (s : State)

/-- The cells the given rows of the sprite at I are drawn on. -/
def State.spriteCells (s : State) (xo yo : Nat) (rows : List Nat) : List Cell :=
  rows.flatMap fun j => rowCells s.cfg.drawEdge (yo + j) xo (s.byteAt (s.indexAddr j)) (List.range 8)

/-- Row `j` drawn from the origin `(xo, yo)` raises no fault. -/
def State.fitsAt (s : State) (xo yo j : Nat) : Prop :=
  s.indexAddr j < memSize ∧
    ∀ k ∈ List.range 8, spriteBit (s.byteAt (s.indexAddr j)) k = true →
      ¬ (s.cfg.drawEdge = .fault ∧ (fbHeight ≤ yo + j ∨ fbWidth ≤ xo + k))

theorem State.fitsAt_iff_rowFits (x y : Reg) (j : Nat) :
    s.fitsAt (s.originCol x) (s.originRow y) j ↔ s.rowFits x y j := by
  simp only [State.fitsAt, State.rowFits, State.bitFaults, State.spriteSets, State.indexAddr, spriteBit,
    State.originCol, State.originRow, List.mem_range]
  grind

/-- A draw none of whose rows faults plots the sprite's cells. -/
theorem drawRows_ok {s : State} {xo yo : Nat} {rows : List Nat} (d : Canvas) (h : ∀ j ∈ rows, s.fitsAt xo yo j) :
    drawRows s xo yo rows d = .ok (d.plots (s.spriteCells xo yo rows)) := by
  induction rows generalizing d with
  | nil => rfl
  | cons j rows ih =>
    have hj := h j (by simp)
    have ih' := fun e => ih e fun m hm => h m (List.mem_cons_of_mem _ hm)
    simp only [drawRows, s.readByte_of_lt hj.1, drawRow_ok d hj.2, ih', State.spriteCells, List.flatMap_cons,
      Canvas.plots_append]

/-- A draw whose first row that does not fit is `j` faults as that row does. -/
theorem drawRows_faults {s : State} {xo yo : Nat} (as bs : List Nat) (j : Nat) (d : Canvas)
    (h : ∀ m ∈ as, s.fitsAt xo yo m) :
    (memSize ≤ s.indexAddr j → drawRows s xo yo (as ++ j :: bs) d = .error (.bounds (s.indexAddr j))) ∧
    (∀ k, s.indexAddr j < memSize →
      (∀ e, drawRow s.cfg.drawEdge (yo + j) xo (s.byteAt (s.indexAddr j)) (List.range 8) e = .error k) →
      drawRows s xo yo (as ++ j :: bs) d = .error k) := by
  induction as generalizing d with
  | nil =>
    refine ⟨fun hj => ?_, fun k hj hk => ?_⟩
    · simp [drawRows, s.readByte_of_ge hj]
    · simp [drawRows, s.readByte_of_lt hj, hk]
  | cons m as ih =>
    have hm := h m (by simp)
    have ih' := fun e => ih e fun q hq => h q (List.mem_cons_of_mem _ hq)
    simp only [List.cons_append, drawRows, s.readByte_of_lt hm.1, drawRow_ok d hm.2]
    exact ih' _

/-- Every fault of a draw is BoundsFault of a row's address outside memory, or DrawBoundsFault. -/
theorem drawRows_error {s : State} {xo yo : Nat} {rows : List Nat} {d : Canvas} {k : Fault}
    (h : drawRows s xo yo rows d = .error k) :
    (∃ j ∈ rows, memSize ≤ s.indexAddr j ∧ k = .bounds (s.indexAddr j)) ∨
      (s.cfg.drawEdge = .fault ∧ ∃ col row, (fbWidth ≤ col ∨ fbHeight ≤ row) ∧ k = .drawBounds col row) := by
  induction rows generalizing d with
  | nil => cases h
  | cons j rows ih =>
    by_cases hj : s.indexAddr j < memSize
    · simp only [drawRows, s.readByte_of_lt hj] at h
      split at h
      · rcases ih h with ⟨m, hm, h'⟩ | h'
        · exact .inl ⟨m, List.mem_cons_of_mem _ hm, h'⟩
        · exact .inr h'
      · cases h; rename_i e he; exact .inr (drawRow_error he)
    · simp only [drawRows, s.readByte_of_ge (Nat.not_lt.1 hj)] at h
      cases h; exact .inl ⟨j, by simp, Nat.not_lt.1 hj, rfl⟩

/-- A cell is drawn on exactly if the sprite covers it. -/
theorem State.mem_spriteCells (x y : Reg) (n : Nibble) (r : Fin fbHeight) (c : Fin fbWidth) :
    (r, c) ∈ s.spriteCells (s.originCol x) (s.originRow y) (List.range n.toNat) ↔ s.spriteCovers x y n r c := by
  simp only [State.spriteCells, rowCells, List.mem_flatMap, List.mem_filterMap, List.mem_filter, List.mem_range,
    target_eq_some, State.spriteCovers, State.spriteSets, spriteBit, State.indexAddr, State.originCol, State.originRow]
  constructor
  · rintro ⟨j, hj, k, ⟨hk, hb⟩, hl⟩; exact ⟨j, k, hj, hk, hb, hl⟩
  · rintro ⟨j, k, hj, hk, hb, hl⟩; exact ⟨j, hj, k, ⟨hk, hb⟩, hl⟩

/-- Two bits of one sprite never land on one cell (R124). -/
theorem landsOn_inj {edge : DrawEdge} {ro co j k m q : Nat} {r : Fin fbHeight} {c : Fin fbWidth} (hj : j < 16)
    (hm : m < 16) (hk : k < 8) (hq : q < 8) (h : landsOn edge (ro + j) (co + k) r c)
    (h' : landsOn edge (ro + m) (co + q) r c) : j = m ∧ k = q := by
  cases edge <;> simp only [landsOn] at h h' <;> omega

/-- A sprite's cells are distinct. -/
theorem State.nodup_spriteCells (xo yo : Nat) (n : Nibble) : (s.spriteCells xo yo (List.range n.toNat)).Nodup := by
  have hn := n.isLt
  unfold State.spriteCells
  rw [List.nodup_flatMap]
  constructor
  · intro j hj
    rw [List.mem_range] at hj
    unfold rowCells List.Nodup
    rw [List.pairwise_filterMap]
    refine List.Pairwise.imp_of_mem ?_ (List.nodup_range.filter _)
    rintro k q hk hq hne ⟨r, c⟩ h1 ⟨r', c'⟩ h2 heq
    cases heq
    simp only [List.mem_filter, List.mem_range] at hk hq
    exact hne (landsOn_inj (by omega) (by omega) hk.1 hq.1 (target_eq_some.1 h1) (target_eq_some.1 h2)).2
  · refine List.Pairwise.imp_of_mem ?_ List.nodup_range
    rintro j m hj hm hne ⟨r, c⟩ h1 h2
    simp only [rowCells, List.mem_filterMap, List.mem_filter, List.mem_range, target_eq_some] at hj hm h1 h2
    obtain ⟨k, ⟨hk, -⟩, h1⟩ := h1
    obtain ⟨q, ⟨hq, -⟩, h2⟩ := h2
    exact hne (landsOn_inj (by omega) (by omega) hk hq h1 h2).1

end Sys2Proof.Machine
end

