-- ==== Sys2Proof/Laws/Effects.lean ====
section
/-! SUPPORT. What one instruction can change, said once for all of them. -/

namespace Sys2Proof.Machine

/-- What instruction `i` leaves of `s` in `t` when it raises no fault (the table of R42). -/
def Effect (i : Instr) (s t : State) : Prop :=
  match i with
  | .cls => t = { s with fb := t.fb }
  | .ret => t = { s with pc := t.pc, sp := t.sp }
  | .call _ =>
    t = { s with pc := t.pc, sp := t.sp, stack := t.stack } ∧
      ∀ k : Fin stackDepth, k.val ≠ s.sp.val → t.stack[k.val] = s.stack[k.val]
  | .jp _ | .jpV0 _ | .seImm _ _ | .sneImm _ _ | .seReg _ _ | .sneReg _ _ | .skp _ | .sknp _ =>
    t = { s with pc := t.pc }
  | .ldImm x _ | .addImm x _ | .ldReg x _ | .orReg x _ | .andReg x _ | .xorReg x _ | .ldVxDT x =>
    t = { s with v := t.v } ∧ ∀ r, r ≠ x → t.reg r = s.reg r
  | .rnd x _ => t = { s with v := t.v, draws := t.draws } ∧ ∀ r, r ≠ x → t.reg r = s.reg r
  | .ldVxK x => t = { s with v := t.v, pc := t.pc } ∧ ∀ r, r ≠ x → t.reg r = s.reg r
  | .addReg x _ | .sub x _ | .shr x _ | .subn x _ | .shl x _ =>
    (t = { s with v := t.v, draws := t.draws } ∧ (s.cfg.vfAlias = .operandsFirst → t.draws = s.draws)) ∧
      ∀ r, r ≠ x → r ≠ vF → t.reg r = s.reg r
  | .drw _ _ _ => t = { s with v := t.v, fb := t.fb } ∧ ∀ r, r ≠ vF → t.reg r = s.reg r
  | .ldVxAtI x => t = { s with v := t.v } ∧ ∀ r : Reg, x.toNat < r.toNat → t.reg r = s.reg r
  | .ldI _ | .addI _ | .ldF _ => t = { s with i := t.i }
  | .ldDT _ => t = { s with dt := t.dt }
  | .ldST _ => t = { s with st := t.st }
  | .ldB _ | .ldAtI _ => t = { s with mem := t.mem } ∧ ∀ a, ¬ storesTo i s a → t.byteAt a = s.byteAt a
  | .nop0 _ | .nop8 _ | .nopE _ | .nopF _ => t = s

theorem settle_effect {s t : State} {r : Except Fault State} {P : State → Prop} (h : settle s r = .next t)
    (ok : ∀ u, r = .ok u → P u) : P t ∨ ∃ k, t = s.takeFault k := by
  rcases settle_cases _ h with h | ⟨k, -, h⟩
  · exact .inl (ok t h)
  · exact .inr ⟨k, h⟩

/-- The unassigned words change nothing or fault. -/
theorem execUnassigned_effect {w : Word} {s t : State} (h : execUnassigned w s = .next t) :
    t = s ∨ ∃ k, t = s.takeFault k :=
  settle_effect (P := fun u => u = s) h fun u hu => by split at hu <;> cases hu; rfl

/-- Everything an instruction that answers a next state can have done: its effect, or fault entry from where it
began. -/
theorem exec_effect {i : Instr} {s t : State} (h : exec i s = .next t) : Effect i s t ∨ ∃ k, t = s.takeFault k := by
  cases i
  case ret =>
    refine settle_effect h fun u hu => ?_
    by_cases h0 : s.sp.val = 0
    · simp [s.pop_empty h0] at hu
    · simp [s.pop_ok (Nat.pos_of_ne_zero h0)] at hu
      subst hu; rfl
  case call nnn =>
    refine settle_effect h fun u hu => ?_
    by_cases h0 : s.sp.val = stackDepth
    · simp [s.push_full _ h0] at hu
    · simp [s.push_ok s.pc (by have := s.sp.isLt; omega)] at hu
      subst hu
      exact ⟨rfl, fun k hk => by simp [Ne.symm hk]⟩
  case drw x y n =>
    exact settle_effect h fun u hu => by
      split at hu <;> cases hu
      exact ⟨rfl, fun r hr => State.reg_setReg_ne s _ hr⟩
  case skp x => exact settle_effect h fun u hu => by split at hu <;> cases hu; exact State.skipIf_frame _ _
  case sknp x => exact settle_effect h fun u hu => by split at hu <;> cases hu; exact State.skipIf_frame _ _
  case ldB x =>
    refine settle_effect h fun u hu => ?_
    obtain ⟨-, -, h3, h4, -⟩ := State.writeBytes_ok hu
    exact ⟨h4, fun a ha => h3 a (by simp [storesTo, State.indexAddr, bcdDigits] at ha ⊢; omega)⟩
  case ldAtI x =>
    refine settle_effect h fun u hu => ?_
    obtain ⟨-, -, h3, h4, -⟩ := State.writeBytes_ok hu
    exact ⟨h4, fun a ha => h3 a (by simp [storesTo, State.indexAddr] at ha ⊢; omega)⟩
  case ldVxAtI x =>
    refine settle_effect h fun u hu => ?_
    obtain ⟨-, h2, h3⟩ := State.loadRegs_ok hu (by simp; have := x.isLt; omega)
    exact ⟨h3, fun r hr => h2 r (by simp; omega)⟩
  case ldVxK x =>
    left
    simp only [exec, execLdVxK] at h
    split at h <;> cases h
    · exact ⟨rfl, fun r hr => State.reg_setReg_ne s _ hr⟩
    · exact ⟨rfl, fun _ _ => rfl⟩
  case nop0 w => exact execUnassigned_effect h
  case nop8 w => exact execUnassigned_effect h
  case nopE w => exact execUnassigned_effect h
  case nopF w => exact execUnassigned_effect h
  all_goals
    left; cases h
    first
    | exact rfl
    | exact State.skipIf_frame _ _
    | exact ⟨rfl, fun r hr => State.reg_setReg_ne _ _ hr⟩
    | exact ⟨(State.writeFlagged_frame _ _ _ _ _).2, (State.writeFlagged_frame _ _ _ _ _).1⟩

end Sys2Proof.Machine
end

