-- ==== Sys2Proof/Laws/PerInstr.lean ====
section
/-! SUPPORT. Laws stated instruction by instruction. -/

namespace Sys2Proof.Laws

/-- The encoder puts an instruction in the family its row of the opcode table names (30_encoding.md R67). -/
def EncodeFamily.Statement (i : Instr) : Prop := i.wf = true → family (encode i) = family i.row.2

theorem EncodeFamily.cls : EncodeFamily.Statement .cls := fun _ => rfl
theorem EncodeFamily.ret : EncodeFamily.Statement .ret := fun _ => rfl
theorem EncodeFamily.jp (nnn : Addr12) : EncodeFamily.Statement (.jp nnn) := fun _ => by rw [encode, family_packAddr, Instr.row]; decide
theorem EncodeFamily.call (nnn : Addr12) : EncodeFamily.Statement (.call nnn) := fun _ => by rw [encode, family_packAddr, Instr.row]; decide
theorem EncodeFamily.seImm (x : Reg) (kk : Byte) : EncodeFamily.Statement (.seImm x kk) := fun _ => by rw [encode, family_packRegByte, Instr.row]; decide
theorem EncodeFamily.sneImm (x : Reg) (kk : Byte) : EncodeFamily.Statement (.sneImm x kk) := fun _ => by rw [encode, family_packRegByte, Instr.row]; decide
theorem EncodeFamily.seReg (x y : Reg) : EncodeFamily.Statement (.seReg x y) := fun _ => by rw [encode, family_packRegs, Instr.row]; decide
theorem EncodeFamily.ldImm (x : Reg) (kk : Byte) : EncodeFamily.Statement (.ldImm x kk) := fun _ => by rw [encode, family_packRegByte, Instr.row]; decide
theorem EncodeFamily.addImm (x : Reg) (kk : Byte) : EncodeFamily.Statement (.addImm x kk) := fun _ => by rw [encode, family_packRegByte, Instr.row]; decide
theorem EncodeFamily.ldReg (x y : Reg) : EncodeFamily.Statement (.ldReg x y) := fun _ => by rw [encode, family_packRegs, Instr.row]; decide
theorem EncodeFamily.orReg (x y : Reg) : EncodeFamily.Statement (.orReg x y) := fun _ => by rw [encode, family_packRegs, Instr.row]; decide
theorem EncodeFamily.andReg (x y : Reg) : EncodeFamily.Statement (.andReg x y) := fun _ => by rw [encode, family_packRegs, Instr.row]; decide
theorem EncodeFamily.xorReg (x y : Reg) : EncodeFamily.Statement (.xorReg x y) := fun _ => by rw [encode, family_packRegs, Instr.row]; decide
theorem EncodeFamily.addReg (x y : Reg) : EncodeFamily.Statement (.addReg x y) := fun _ => by rw [encode, family_packRegs, Instr.row]; decide
theorem EncodeFamily.sub (x y : Reg) : EncodeFamily.Statement (.sub x y) := fun _ => by rw [encode, family_packRegs, Instr.row]; decide
theorem EncodeFamily.shr (x y : Reg) : EncodeFamily.Statement (.shr x y) := fun _ => by rw [encode, family_packRegs, Instr.row]; decide
theorem EncodeFamily.subn (x y : Reg) : EncodeFamily.Statement (.subn x y) := fun _ => by rw [encode, family_packRegs, Instr.row]; decide
theorem EncodeFamily.shl (x y : Reg) : EncodeFamily.Statement (.shl x y) := fun _ => by rw [encode, family_packRegs, Instr.row]; decide
theorem EncodeFamily.sneReg (x y : Reg) : EncodeFamily.Statement (.sneReg x y) := fun _ => by rw [encode, family_packRegs, Instr.row]; decide
theorem EncodeFamily.ldI (nnn : Addr12) : EncodeFamily.Statement (.ldI nnn) := fun _ => by rw [encode, family_packAddr, Instr.row]; decide
theorem EncodeFamily.jpV0 (nnn : Addr12) : EncodeFamily.Statement (.jpV0 nnn) := fun _ => by rw [encode, family_packAddr, Instr.row]; decide
theorem EncodeFamily.rnd (x : Reg) (kk : Byte) : EncodeFamily.Statement (.rnd x kk) := fun _ => by rw [encode, family_packRegByte, Instr.row]; decide
theorem EncodeFamily.drw (x y : Reg) (n : Nibble) : EncodeFamily.Statement (.drw x y n) := fun _ => by rw [encode, family_packRegs, Instr.row]; decide
theorem EncodeFamily.skp (x : Reg) : EncodeFamily.Statement (.skp x) := fun _ => by rw [encode, family_packRegByte, Instr.row]; decide
theorem EncodeFamily.sknp (x : Reg) : EncodeFamily.Statement (.sknp x) := fun _ => by rw [encode, family_packRegByte, Instr.row]; decide
theorem EncodeFamily.ldVxDT (x : Reg) : EncodeFamily.Statement (.ldVxDT x) := fun _ => by rw [encode, family_packRegByte, Instr.row]; decide
theorem EncodeFamily.ldVxK (x : Reg) : EncodeFamily.Statement (.ldVxK x) := fun _ => by rw [encode, family_packRegByte, Instr.row]; decide
theorem EncodeFamily.ldDT (x : Reg) : EncodeFamily.Statement (.ldDT x) := fun _ => by rw [encode, family_packRegByte, Instr.row]; decide
theorem EncodeFamily.ldST (x : Reg) : EncodeFamily.Statement (.ldST x) := fun _ => by rw [encode, family_packRegByte, Instr.row]; decide
theorem EncodeFamily.addI (x : Reg) : EncodeFamily.Statement (.addI x) := fun _ => by rw [encode, family_packRegByte, Instr.row]; decide
theorem EncodeFamily.ldF (x : Reg) : EncodeFamily.Statement (.ldF x) := fun _ => by rw [encode, family_packRegByte, Instr.row]; decide
theorem EncodeFamily.ldB (x : Reg) : EncodeFamily.Statement (.ldB x) := fun _ => by rw [encode, family_packRegByte, Instr.row]; decide
theorem EncodeFamily.ldAtI (x : Reg) : EncodeFamily.Statement (.ldAtI x) := fun _ => by rw [encode, family_packRegByte, Instr.row]; decide
theorem EncodeFamily.ldVxAtI (x : Reg) : EncodeFamily.Statement (.ldVxAtI x) := fun _ => by rw [encode, family_packRegByte, Instr.row]; decide
theorem EncodeFamily.nop0 (w : Word) : EncodeFamily.Statement (.nop0 w) := fun h => by
  simp only [Instr.wf, unassignedNibble, Bool.and_eq_true, beq_iff_eq] at h; exact h.1.trans (by rw [Instr.row]; decide)
theorem EncodeFamily.nop8 (w : Word) : EncodeFamily.Statement (.nop8 w) := fun h => by
  simp only [Instr.wf, unassignedNibble, Bool.and_eq_true, beq_iff_eq] at h; exact h.1.trans (by rw [Instr.row]; decide)
theorem EncodeFamily.nopE (w : Word) : EncodeFamily.Statement (.nopE w) := fun h => by
  simp only [Instr.wf, unassignedNibble, Bool.and_eq_true, beq_iff_eq] at h; exact h.1.trans (by rw [Instr.row]; decide)
theorem EncodeFamily.nopF (w : Word) : EncodeFamily.Statement (.nopF w) := fun h => by
  simp only [Instr.wf, unassignedByteF, Bool.and_eq_true, beq_iff_eq] at h; exact h.1.trans (by rw [Instr.row]; decide)

end Sys2Proof.Laws
end

