-- ==== Sys2Proof/Tests/Slice0.lean ====
section
/-! SUPPORT. Tests of the model against the spec's own vectors (95_test_vectors.md, ids V-…) and encodings (30_encoding.md
R71 to R75, R81), and for every statement with hypotheses a state and operands that meet them. -/

open Sys2Proof Sys2Proof.Machine

namespace Sys2Proof.Tests

/-! ### Small states -/

/-- The launch state with one word at 0x200 (the vectors' default start state). -/
def boot (w : Nat) : State := State.reset.withFetchWord 16 w

/-- `boot` with V1 and V2 set. -/
def boot12 (w : Nat) (a b : Byte) : State := ((boot w).setReg 1#4 a).setReg 2#4 b

/-- `boot` with some parameters changed. -/
def bootCfg (w : Nat) (f : Config → Config) : State := { boot w with cfg := f (boot w).cfg }

/-- The state after one cycle. -/
def after (s : State) : State :=
  match step s with
  | .next t => t
  | .fault _ | .refused _ => s

/-- The state after one host call. -/
def served (c : HostCall) (s : State) : State :=
  match serve c s with
  | .next (t, _) => t
  | .fault _ | .refused _ => s

/-- The framebuffer with exactly the given (row, column) cells on. -/
def cells (cs : List (Fin fbHeight × Fin fbWidth)) : Framebuffer :=
  cs.foldl (fun fb c => Framebuffer.flip fb c.1 c.2) clearFramebuffer

/-- The bytes of memory at consecutive addresses. -/
def bytes (s : State) (a n : Nat) : List Byte := (List.range n).map fun k => s.byteAt (a + k)

/-- A keypad with the given keys pressed. -/
def pressed (ks : List Nat) : Vector Bool numKeys := Vector.ofFn fun k => ks.contains k.val

/-- A recorded fault. -/
def aFault : FaultRecord := ⟨.stackUnderflow, 0x200#16, some 0x00EE#16⟩

/-! ### WellFormed refuses ill-formed terms -/

theorem test_wf_family0 : (Instr.nop0 0x8008#16).wf = false ∧ (Instr.nop0 0x0001#16).wf = true := by decide
theorem test_wf_assigned0 : (Instr.nop0 0x00E0#16).wf = false ∧ (Instr.nop0 0x012E#16).wf = false := by decide
theorem test_wf_family8 : (Instr.nop8 0x0001#16).wf = false ∧ (Instr.nop8 0x812F#16).wf = true := by decide
theorem test_wf_assigned8 : (Instr.nop8 0x8127#16).wf = false ∧ (Instr.nop8 0x812E#16).wf = false := by decide
theorem test_wf_familyE : (Instr.nopE 0xF12A#16).wf = false ∧ (Instr.nopE 0xE1A2#16).wf = true := by decide
theorem test_wf_assignedE : (Instr.nopE 0xE10E#16).wf = false ∧ (Instr.nopE 0xE191#16).wf = false := by decide
theorem test_wf_familyF : (Instr.nopF 0xE1A2#16).wf = false ∧ (Instr.nopF 0xF12A#16).wf = true := by decide
theorem test_wf_assignedF : (Instr.nopF 0xF165#16).wf = false ∧ (Instr.nopF 0xF10A#16).wf = false := by decide

/-! ### Decoding: words written out from the spec's encodings, bit by bit -/

-- R72; V-E1 to V-E6
theorem test_decode_family0 :
    decodeWord 0b0000_0000_1110_0000#16 = .cls ∧ decodeWord 0b0000_0000_1110_1110#16 = .ret ∧
    decodeWord 0b0000_1111_1111_1101#16 = .nop0 0x0FFD#16 := by decide

-- R71
theorem test_decode_addresses :
    decodeWord 0b0001_0010_0011_0100#16 = .jp 0x234#12 ∧ decodeWord 0b0010_1010_1011_1100#16 = .call 0xABC#12 ∧
    decodeWord 0b1010_0011_0000_0001#16 = .ldI 0x301#12 ∧ decodeWord 0b1011_0101_0000_0110#16 = .jpV0 0x506#12 := by
  decide

-- R71
theorem test_decode_immediates :
    decodeWord 0b0011_1111_0000_0001#16 = .seImm 15#4 0x01#8 ∧ decodeWord 0b0100_0010_0000_0110#16 = .sneImm 2#4 0x06#8 ∧
    decodeWord 0b0110_0001_0000_0101#16 = .ldImm 1#4 0x05#8 ∧ decodeWord 0b0111_0001_1111_1110#16 = .addImm 1#4 0xFE#8 ∧
    decodeWord 0b1100_0001_0000_1111#16 = .rnd 1#4 0x0F#8 := by decide

-- R69; V-E7, V-E8
theorem test_decode_register_skips :
    decodeWord 0b0101_0011_0100_0000#16 = .seReg 3#4 4#4 ∧ decodeWord 0b1001_0001_0010_1111#16 = .sneReg 1#4 2#4 := by
  decide

-- R73; V-E9, V-E10
theorem test_decode_family8 :
    decodeWord 0b1000_0001_0010_0000#16 = .ldReg 1#4 2#4 ∧ decodeWord 0b1000_0001_0010_0001#16 = .orReg 1#4 2#4 ∧
    decodeWord 0b1000_0001_0010_0010#16 = .andReg 1#4 2#4 ∧ decodeWord 0b1000_0001_0010_0011#16 = .xorReg 1#4 2#4 ∧
    decodeWord 0b1000_0001_0010_0100#16 = .addReg 1#4 2#4 ∧ decodeWord 0b1000_0001_0010_0101#16 = .sub 1#4 2#4 ∧
    decodeWord 0b1000_0001_1001_0110#16 = .shr 1#4 9#4 ∧ decodeWord 0b1000_0001_0010_0111#16 = .subn 1#4 2#4 ∧
    decodeWord 0b1000_0001_0010_1110#16 = .shl 1#4 2#4 ∧ decodeWord 0b1000_0001_0010_1000#16 = .nop8 0x8128#16 := by
  decide

-- R71, R119
theorem test_decode_drw : decodeWord 0b1101_0001_0010_0101#16 = .drw 1#4 2#4 5#4 := by decide

-- R74; V-E11 to V-E13
theorem test_decode_familyE :
    decodeWord 0b1110_0001_1001_1110#16 = .skp 1#4 ∧ decodeWord 0b1110_0001_0000_1110#16 = .skp 1#4 ∧
    decodeWord 0b1110_0001_1010_0001#16 = .sknp 1#4 ∧ decodeWord 0b1110_0001_1001_1111#16 = .nopE 0xE19F#16 := by decide

-- R75; V-E14, V-E15
theorem test_decode_familyF :
    decodeWord 0b1111_0010_0000_0111#16 = .ldVxDT 2#4 ∧ decodeWord 0b1111_0011_0000_1010#16 = .ldVxK 3#4 ∧
    decodeWord 0b1111_0001_0001_0101#16 = .ldDT 1#4 ∧ decodeWord 0b1111_0001_0001_1000#16 = .ldST 1#4 ∧
    decodeWord 0b1111_0010_0001_1110#16 = .addI 2#4 ∧ decodeWord 0b1111_0001_0010_1001#16 = .ldF 1#4 ∧
    decodeWord 0b1111_0000_0011_0011#16 = .ldB 0#4 ∧ decodeWord 0b1111_0010_0101_0101#16 = .ldAtI 2#4 ∧
    decodeWord 0b1111_0010_0110_0101#16 = .ldVxAtI 2#4 ∧ decodeWord 0b1111_0001_0000_1011#16 = .nopF 0xF10B#16 := by
  decide

-- R45, R63: big-endian, two bytes consumed, fewer refused
theorem test_decode_bytes :
    decode [0x12#8, 0x34#8, 0x60#8] = .ok (.jp 0x234#12, [0x60#8]) ∧ decode [0x12#8] = .error .truncated ∧
    decode [] = .error .truncated := by decide

theorem test_decodeTableWord :
    decodeTableWord 16 0xD015 = some (.drw 0#4 1#4 5#4) ∧ decodeTableWord 16 0x00E0 = some .cls ∧
    decodeTableWord 24 0x1234 = none := by decide

/-! ### The cycle -/

-- V-E16: the fetch is big-endian
theorem test_fetch_big_endian : (boot 0x1234).fetch = .ok 0x1234#16 ∧ bytes (boot 0x1234) 0x200 2 = [0x12#8, 0x34#8] := by
  decide

-- V-E18: the last word of memory is fetched and run
theorem test_fetch_last_word :
    let t := after ({ State.reset with pc := 0xFFE#16 }.withFetchWord 16 0x6007)
    t.reg 0#4 = 7#8 ∧ t.pc = 0x1000#16 := by decide

-- V-E19, V-E20
theorem test_fetch_faults :
    (after { State.reset with pc := 0xFFF#16 }).fault = some ⟨.bounds 0x1000, 0xFFF#16, none⟩ ∧
    (after { State.reset with pc := 0x1000#16 }).fault = some ⟨.bounds 0x1000, 0x1000#16, none⟩ := by decide

-- V-E21: a halted cycle changes nothing
theorem test_halted : after { boot 0x8000 with fault := some aFault, dt := 5#8 } =
    { boot 0x8000 with fault := some aFault, dt := 5#8 } := by decide

-- V-E23: the tick
theorem test_tick :
    let t := after { boot 0x8000 with dt := 3#8, st := 1#8 }
    t.dt = 2#8 ∧ t.st = 0#8 ∧ t.pc = 0x202#16 ∧ t.w = none := by decide

-- R140: the cause codes
theorem test_fault_codes :
    faultCode none = 0 ∧ faultCode (some aFault) = 2 ∧ Fault.stackOverflow.code = 1 ∧ (Fault.bounds 4096).code = 3 ∧
    (Fault.keyRange 16#8).code = 4 ∧ (Fault.drawBounds 64 0).code = 5 ∧ (Fault.unassigned 1#16).code = 6 := by decide

/-! ### Control flow -/

-- V-C1, V-C3
theorem test_jp : (after (boot 0x1234)).pc = 0x234#16 ∧ (after (boot 0x1FFF)).pc = 0xFFF#16 := by decide

-- V-C5: the sixteenth call succeeds
theorem test_call_sixteenth :
    let t := after { boot 0x2300 with sp := 15 }
    t.stack[15] = 0x202#16 ∧ t.sp = 16 ∧ t.pc = 0x300#16 := by decide

-- V-C6: the seventeenth faults
theorem test_call_overflow :
    let t := after { boot 0x2300 with sp := 16 }
    t.fault = some ⟨.stackOverflow, 0x200#16, some 0x2300#16⟩ ∧ t.sp = 16 ∧ t.pc = 0x200#16 := by decide

-- V-C8
theorem test_ret :
    let t := after { boot 0x00EE with sp := 1, stack := (boot 0).stack.set 0 0x206#16 }
    t.sp = 0 ∧ t.pc = 0x206#16 ∧ t.stack[0] = 0x206#16 := by decide

-- V-C10
theorem test_ret_underflow :
    (after (boot 0x00EE)).fault = some ⟨.stackUnderflow, 0x200#16, some 0x00EE#16⟩ ∧
    (after (boot 0x00EE)).pc = 0x200#16 := by decide

-- V-S1a, V-S1b
theorem test_seImm : (after (boot12 0x3100 0#8 0#8)).pc = 0x204#16 ∧ (after (boot12 0x3100 1#8 0#8)).pc = 0x202#16 := by
  decide

-- V-S1c, V-S1d
theorem test_sneImm : (after (boot12 0x4205 0#8 5#8)).pc = 0x202#16 ∧ (after (boot12 0x4206 0#8 5#8)).pc = 0x204#16 := by
  decide

-- R91: equal and different registers
theorem test_seReg : (after (boot12 0x5120 7#8 7#8)).pc = 0x204#16 ∧ (after (boot12 0x5120 7#8 8#8)).pc = 0x202#16 := by
  decide

-- R92: different and equal registers
theorem test_sneReg : (after (boot12 0x9120 7#8 8#8)).pc = 0x204#16 ∧ (after (boot12 0x9120 7#8 7#8)).pc = 0x202#16 := by
  decide

-- V-C14, V-C15
theorem test_jpV0 :
    (after ((boot 0xBFFF).setReg 0#4 0xFF#8)).pc = 0x10FE#16 ∧
    (after (((boot 0xB500).setReg 0#4 0x10#8).setReg 5#4 0x77#8)).pc = 0x510#16 := by decide

-- V-C22: an unassigned word of each family does nothing
theorem test_nop : ∀ w ∈ [0x0001, 0x8008, 0xE1A2, 0xF12A], after (boot w) = { boot w with pc := 0x202#16 } := by decide

-- V-C23: or faults
theorem test_nop_faults :
    (after (bootCfg 0x8008 fun c => { c with unassignedPolicy := .fault })).fault =
      some ⟨.unassigned 0x8008#16, 0x200#16, some 0x8008#16⟩ := by decide

/-! ### ALU -/

-- V-A5
theorem test_ldImm : (after (boot 0x6FAA)).reg 15#4 = 0xAA#8 ∧ (after (boot 0x6FAA)).pc = 0x202#16 := by decide

-- V-A6, V-A7: no carry
theorem test_addImm :
    (after ((boot12 0x71FF 5#8 0#8).setReg 15#4 0xAA#8)).v = ((boot12 0x71FF 4#8 0#8).setReg 15#4 0xAA#8).v ∧
    (after (boot12 0x7101 0xFF#8 0#8)).v = (boot 0).v := by decide

-- V-A9
theorem test_ldReg : (after (boot12 0x8120 0#8 0x33#8)).reg 1#4 = 0x33#8 := by decide

-- V-A10: VF is not reset
theorem test_or :
    let t := after ((boot12 0x8121 0x0F#8 0xF0#8).setReg 15#4 0xAA#8)
    t.reg 1#4 = 0xFF#8 ∧ t.reg 15#4 = 0xAA#8 := by decide

-- V-A11
theorem test_and : (after (boot12 0x8122 0x3C#8 0x0F#8)).reg 1#4 = 0x0C#8 := by decide

-- V-A12
theorem test_xor : (after (boot12 0x8123 0xFF#8 0x0F#8)).reg 1#4 = 0xF0#8 := by decide

-- V-A1a, V-A1c
theorem test_add :
    let t := after (boot12 0x8124 0xFF#8 1#8)
    let u := after (boot12 0x8124 0x80#8 0x7F#8)
    t.reg 1#4 = 0#8 ∧ t.reg 15#4 = 1#8 ∧ u.reg 1#4 = 0xFF#8 ∧ u.reg 15#4 = 0#8 := by decide

-- V-A15, V-A16: VF as operand, VF as destination
theorem test_add_vf :
    let t := after (((boot 0x81F4).setReg 1#4 0xFF#8).setReg 15#4 1#8)
    let u := after (((boot 0x8F14).setReg 1#4 0x20#8).setReg 15#4 0x10#8)
    t.reg 1#4 = 0#8 ∧ t.reg 15#4 = 1#8 ∧ u.reg 15#4 = 0x30#8 := by decide

-- V-A2b, V-A2c
theorem test_sub :
    let t := after (boot12 0x8125 5#8 5#8)
    let u := after (boot12 0x8125 5#8 6#8)
    t.reg 1#4 = 0#8 ∧ t.reg 15#4 = 0#8 ∧ u.reg 1#4 = 0xFF#8 ∧ u.reg 15#4 = 0#8 := by decide

-- V-A2a, V-A19
theorem test_sub_flag :
    let t := after (boot12 0x8125 6#8 5#8)
    let u := after (((boot 0x8F15).setReg 1#4 1#8).setReg 15#4 0x10#8)
    t.reg 1#4 = 1#8 ∧ t.reg 15#4 = 1#8 ∧ u.reg 15#4 = 0x0F#8 := by decide

-- V-A20, V-A21
theorem test_subn :
    let t := after (boot12 0x8127 5#8 6#8)
    let u := after (boot12 0x8127 6#8 5#8)
    t.reg 1#4 = 1#8 ∧ t.reg 15#4 = 1#8 ∧ u.reg 1#4 = 0xFF#8 ∧ u.reg 15#4 = 0#8 := by decide

-- V-A24, V-A25: Vy is not read; x = 15
theorem test_shr :
    let t := after (((boot 0x8196).setReg 1#4 0x81#8).setReg 9#4 0xFF#8)
    let u := after ((boot 0x8F06).setReg 15#4 6#8)
    t.reg 1#4 = 0x40#8 ∧ t.reg 15#4 = 1#8 ∧ u.reg 15#4 = 3#8 := by decide

-- V-A3c, V-A27
theorem test_shl :
    let t := after (boot12 0x810E 0x81#8 0#8)
    let u := after ((boot 0x8F0E).setReg 15#4 0x81#8)
    t.reg 1#4 = 2#8 ∧ t.reg 15#4 = 1#8 ∧ u.reg 15#4 = 2#8 := by decide

-- V-A31: any byte in VF, the free value of the next draw
theorem test_vf_alias_any :
    let t := after (((bootCfg 0x8F14 fun c => { c with vfAlias := .any }).setReg 1#4 0x20#8).setReg 15#4 0x10#8)
    t.reg 15#4 = Config.freeByte 0 ∧ t.reg 1#4 = 0x20#8 ∧ t.draws = 1 := ⟨rfl, rfl, rfl⟩

-- R107: one fresh draw AND kk, whatever it is
theorem test_rnd :
    let t := after (boot 0xC10F)
    t.reg 1#4 = Config.freeByte 0 &&& 0x0F#8 ∧ t.draws = 1 ∧ t.pc = 0x202#16 := ⟨rfl, rfl, rfl⟩

/-! ### Index register and timers -/

-- V-T1
theorem test_ldI : (after (boot 0xA300)).i = 0x300#16 := by decide

-- V-T4, V-T5
theorem test_addI :
    let t := after { boot12 0xF21E 0#8 1#8 with i := 0xFFF#16 }
    t.i = 0x1000#16 ∧ t.reg 15#4 = 0#8 ∧ (after { boot12 0xF21E 0#8 1#8 with i := 0xFFFF#16 }).i = 0#16 := by decide

-- V-T7, V-T11
theorem test_ldF :
    (after ((boot 0xF029).setReg 0#4 0x0A#8)).i = 0x082#16 ∧ (after ((boot 0xF029).setReg 0#4 0xFF#8)).i = 0x54B#16 := by
  decide

-- V-T12: read before the tick
theorem test_ldVxDT :
    let t := after { boot 0xF207 with dt := 2#8 }
    t.reg 2#4 = 2#8 ∧ t.dt = 1#8 := by decide

-- V-T14, V-T18
theorem test_ldDT :
    (after (boot12 0xF115 3#8 0#8)).dt = 2#8 ∧
    (after ((bootCfg 0xF115 fun c => { c with timerMode := .external }).setReg 1#4 3#8)).dt = 3#8 := by decide

-- V-T16, V-T17
theorem test_ldST : (after (boot12 0xF118 5#8 0#8)).st = 4#8 ∧ (after (boot12 0xF118 1#8 0#8)).st = 0#8 := by decide

/-! ### Display -/

-- V-D3, V-D4
theorem test_cls :
    (after { boot 0x00E0 with fb := cells [(0, 0), (31, 63)] }).fb = clearFramebuffer ∧
    (after { boot 0x0000 with fb := cells [(5, 6)] }).fb = clearFramebuffer := by decide +kernel

/-- The glyph of digit 0 in the default font, at the top left corner (V-D1). -/
def glyph0 : Framebuffer :=
  cells [(0, 0), (0, 1), (0, 2), (0, 3), (1, 0), (1, 3), (2, 0), (2, 3), (3, 0), (3, 3), (4, 0), (4, 1), (4, 2), (4, 3)]

-- V-D1's draw
theorem test_drw_glyph :
    (after { boot 0xD005 with i := 0x050#16 }).fb = glyph0 ∧ (after { boot 0xD005 with i := 0x050#16 }).reg 15#4 = 0#8 := by decide +kernel

-- V-D10, V-D11, V-D12: columns past 63 under the three settings of DRAW_EDGE
theorem test_drw_edge :
    let s := fun e => { (bootCfg 0xD015 fun c => { c with drawEdge := e }).setReg 0#4 61#8 with i := 0x050#16 }
    (after (s .fault)).fault = some ⟨.drawBounds 64 0, 0x200#16, some 0xD015#16⟩ ∧
    (after (s .clip)).fb =
      cells [(0, 61), (0, 62), (0, 63), (1, 61), (2, 61), (3, 61), (4, 61), (4, 62), (4, 63)] ∧
    (after (s .wrap)).fb =
      cells [(0, 61), (0, 62), (0, 63), (1, 61), (2, 61), (3, 61), (4, 61), (4, 62), (4, 63), (0, 0), (1, 0), (2, 0),
        (3, 0), (4, 0)] := by decide +kernel

/-! ### Keypad -/

-- V-K2, V-K3, V-K8
theorem test_skp :
    (after { boot12 0xE19E 7#8 0#8 with keys := pressed [7] }).pc = 0x204#16 ∧
    (after (boot12 0xE19E 7#8 0#8)).pc = 0x202#16 ∧
    (after (boot12 0xE19E 0x10#8 0#8)).fault = some ⟨.keyRange 0x10#8, 0x200#16, some 0xE19E#16⟩ := by decide

-- V-K4, V-K5
theorem test_sknp :
    (after (boot12 0xE1A1 7#8 0#8)).pc = 0x204#16 ∧
    (after { boot12 0xE1A1 7#8 0#8 with keys := pressed [7] }).pc = 0x202#16 := by decide

-- V-K1c: the lowest of two keys
theorem test_ldVxK :
    let t := after { boot 0xF30A with keys := pressed [7, 9] }
    t.reg 3#4 = 7#8 ∧ t.pc = 0x202#16 := by decide

-- V-K12: the wait still ticks
theorem test_ldVxK_waits : after { boot 0xF30A with dt := 2#8 } = { boot 0xF30A with dt := 1#8 } := by decide

/-! ### Memory blocks -/

-- V-M6: the last base that fits
theorem test_ldB :
    let t := after { (boot 0xF033).setReg 0#4 0xFF#8 with i := 0xFFD#16 }
    bytes t 0xFFD 3 = [2#8, 5#8, 5#8] ∧ t.i = 0xFFD#16 ∧ t.fault = none := by decide

-- V-M7: no digit is kept
theorem test_ldB_faults :
    let t := after { (boot 0xF033).setReg 0#4 0xFF#8 with i := 0xFFE#16 }
    t.fault = some ⟨.bounds 0x1000, 0x200#16, some 0xF033#16⟩ ∧ bytes t 0xFFE 2 = [0#8, 0#8] := by decide

-- V-M9: x = 0 stores V0 only
theorem test_ldAtI :
    let t := after { ((boot 0xF055).setReg 0#4 0x5A#8).setReg 1#4 0x77#8 with i := 0x400#16 }
    bytes t 0x400 2 = [0x5A#8, 0#8] ∧ t.i = 0x400#16 := by decide

-- V-M14: no register is kept; V-M15: the first font byte
theorem test_ldVxAtI :
    (after { boot 0xF165 with i := 0xFFF#16 }).fault = some ⟨.bounds 0x1000, 0x200#16, some 0xF165#16⟩ ∧
    (after { boot 0xF065 with i := 0x050#16 }).reg 0#4 = 0xF0#8 := by decide

-- V-M12
theorem test_ldVxAtI_block :
    let t := after { (((boot 0xF265).setByte 0x300 2#8).setByte 0x301 5#8).setByte 0x302 4#8 with i := 0x300#16 }
    t.reg 0#4 = 2#8 ∧ t.reg 1#4 = 5#8 ∧ t.reg 2#4 = 4#8 ∧ t.reg 3#4 = 0#8 := by decide

/-! ### Memory, reset and the host -/

-- log 4: the canonical form; writing the reset contents back removes the cell
theorem test_memory_canonical :
    ((boot 0x1234).setByte 0x050 0#8).mem = [(0x050, 0#8), (0x200, 0x12#8), (0x201, 0x34#8)] ∧
    (((boot 0x1234).setByte 0x050 0#8).setByte 0x050 0xF0#8).mem = (boot 0x1234).mem := by decide

-- R38, R39: digit F of the font and the byte before the font
theorem test_reset_font :
    bytes State.reset 0x09B 5 = [0xF0#8, 0x80#8, 0xF0#8, 0x80#8, 0x80#8] ∧ State.reset.byteAt 0x04F = 0#8 ∧
    State.reset.byteAt 0x0A0 = 0#8 := by decide

-- V-E22: Reset clears a fault
theorem test_host_reset :
    (({ boot 0x8000 with fault := some aFault }).hostReset defaultFont).fault = none ∧
    (({ boot 0x8000 with fault := some aFault }).hostReset defaultFont).byteAt 0x200 = 0#8 := by decide

-- V-L4
theorem test_loadImage :
    let t := served (.loadImage [0x12#8, 0x00#8]) { State.reset with pc := 0x20C#16 }
    bytes t 0x200 2 = [0x12#8, 0x00#8] ∧ t.pc = 0x20C#16 := by decide

-- V-T19
theorem test_hostTimerTick :
    let t := ({ bootCfg 0x8000 fun c => { c with timerMode := .external } with dt := 3#8 }).hostTimerTick
    t.dt = 2#8 ∧ t.st = 0#8 := by decide

-- R158: a cell that is on, in a scalar of 32 bits
theorem test_cellScalar : cellScalar 32 true = 0xFFFFFFFF#32 ∧ cellScalar 32 false = 0#32 := by decide

/-! ### Witnesses: for every statement with hypotheses, a state and operands that meet all of them -/

theorem witness_DecodeEncodeAgree : (Instr.nop0 0x0001#16).wf = true ∧ (Instr.drw 15#4 15#4 15#4).wf = true := by decide

theorem witness_DecodeFollowsTheOpcodeTable :
    Instr.ret.isNop = false ∧ 0x012E#16 &&& Instr.ret.row.1 = Instr.ret.row.2 := by decide

theorem witness_DecodeIgnoresUnkeyedBits :
    0xD#4 ∈ [0x1#4, 0x2#4, 0x3#4, 0x4#4, 0x6#4, 0x7#4, 0xA#4, 0xB#4, 0xC#4, 0xD#4] := by decide

theorem witness_Cycle_halted : { boot 0x1234 with fault := some aFault }.fault ≠ none := by decide

theorem witness_Cycle_fetch_faults :
    let s := { State.reset with pc := 0x1000#16 }
    let t := { State.reset with pc := 0xFFF#16 }
    s.fault = none ∧ 4096 ≤ s.pc.toNat ∧ t.fault = none ∧ t.pc.toNat = 4095 := by decide

theorem witness_Cycle_ticks :
    let s := { State.reset with pc := 0xFFE#16 }.withFetchWord 16 0x6007
    s.fault = none ∧ s.pc.toNat + 1 < 4096 ∧ s.byteAt s.pc.toNat = 0x60#8 ∧ s.byteAt (s.pc.toNat + 1) = 0x07#8 ∧
    decode [0x60#8, 0x07#8] = .ok (.ldImm 0#4 7#8, []) ∧
    ∃ t, exec (.ldImm 0#4 7#8) { s with w := some 0x6007#16, pc := s.pc + 2#16 } = .next t ∧ t.fault = none ∧
      t.cfg.timerMode = .perCycle := ⟨rfl, by decide, by decide, by decide, by decide, _, rfl, rfl, rfl⟩

theorem witness_Cycle_still :
    let s := boot 0x00EE
    s.fault = none ∧ s.pc.toNat + 1 < 4096 ∧ decode [s.byteAt 0x200, s.byteAt 0x201] = .ok (.ret, []) ∧
    (∃ t, exec .ret { s with w := some 0x00EE#16, pc := s.pc + 2#16 } = .next t ∧ t.fault ≠ none) ∧
    (bootCfg 0x8000 fun c => { c with timerMode := .external }).cfg.timerMode = .external :=
  ⟨rfl, by decide, by decide, ⟨_, rfl, by decide⟩, rfl⟩

/-- One cycle that returns OK and one that returns the record. -/
theorem witness_Cycle_replies :
    State.reset.fault = none ∧ (∃ t, step (boot 0x00E0) = .next t ∧ t.fault = none) ∧
    ∃ t r, step (boot 0x00EE) = .next t ∧ t.fault = some r := ⟨rfl, ⟨_, rfl, rfl⟩, _, _, rfl, rfl⟩

theorem witness_HaltedMachineStaysHalted :
    { boot 0x1234 with fault := some aFault }.fault = some aFault ∧
    (∀ font, HostCall.setKeys noKeys ≠ .reset font) ∧
    ∃ t a, serve (.setKeys noKeys) { boot 0x1234 with fault := some aFault } = .next (t, a) :=
  ⟨rfl, fun _ h => (by cases h), _, _, rfl⟩

theorem witness_FaultEntry_execution :
    let s := boot 0x00EE
    s.fault = none ∧ s.w = none ∧ s.pc.toNat + 1 < 4096 ∧
    ∃ t, step s = .next t ∧ t.fault = some ⟨.stackUnderflow, 0x200#16, some 0x00EE#16⟩ :=
  ⟨rfl, rfl, by decide, _, rfl, by decide⟩

theorem witness_FaultEntry_fetch :
    let s := { State.reset with pc := 0xFFF#16 }
    s.fault = none ∧ s.w = none ∧ 4096 ≤ s.pc.toNat + 1 ∧
    ∃ t, step s = .next t ∧ t.fault = some ⟨.bounds 0x1000, 0xFFF#16, none⟩ :=
  ⟨rfl, rfl, by decide, _, rfl, by decide⟩

theorem witness_FaultsComeOnlyFromTheirOperations :
    ∃ t r, State.reset.fault = none ∧ exec .ret State.reset = .next t ∧ t.fault = some r := ⟨_, _, rfl, rfl, rfl⟩

theorem witness_TimersTickOncePerCompletedCycle :
    let s := { boot 0x8000 with dt := 3#8 }
    let w := wordOfBytes (s.byteAt s.pc.toNat) (s.byteAt (s.pc.toNat + 1))
    s.fault = none ∧ s.pc.toNat + 1 < 4096 ∧ decodeWord w = .ldReg 0#4 0#4 ∧
    ∃ u, exec (.ldReg 0#4 0#4) (s.latch w) = .next u ∧ u.cfg.timerMode = .perCycle ∧ u.fault = none :=
  ⟨rfl, by decide, by decide, _, rfl, rfl, rfl⟩

theorem fetch_boot_cls : (boot 0x00E0).fetch = .ok 0x00E0#16 := by decide

theorem witness_DelayTimerCountsCycles :
    (boot 0x00E0).cfg.timerMode = .perCycle ∧
    (∀ (j : Nat) (u : State) (w : Word) (x : Reg), j < 1 → Sys2Proof.core.run j (boot 0x00E0) = .next u →
      u.fetch = .ok w → decodeWord w ≠ .ldDT x) ∧
    ∃ t, Sys2Proof.core.run 1 (boot 0x00E0) = .next t ∧ t.fault = none := by
  refine ⟨rfl, fun j u w x hj hu hw => ?_, _, rfl, by decide⟩
  obtain rfl : j = 0 := by omega
  cases hu
  cases fetch_boot_cls.symm.trans hw
  exact fun h => Instr.noConfusion (show Instr.cls = .ldDT x from h)

theorem witness_KeypadIsReadOnlyToInstructions :
    (∃ t, exec .cls State.reset = .next t) ∧ ∀ x, Instr.cls ≠ .skp x ∧ Instr.cls ≠ .sknp x ∧ Instr.cls ≠ .ldVxK x :=
  ⟨⟨_, rfl⟩, fun _ => ⟨fun h => (by cases h), fun h => (by cases h), fun h => (by cases h)⟩⟩

theorem witness_RegistersOutsideTheDestinationsAreKept :
    (∃ t, exec (.ldVxAtI 2#4) State.reset = .next t) ∧ ¬ writesReg (.ldVxAtI 2#4) 3#4 ∧ ¬ writesReg .cls 15#4 :=
  ⟨⟨_, rfl⟩, by simp [writesReg], by simp [writesReg]⟩

theorem witness_MemoryOutsideTheStoredBytesIsKept :
    let s := { State.reset with i := 0x300#16 }
    (∃ t, exec (.ldB 0#4) s = .next t) ∧ ¬ storesTo (.ldB 0#4) s 0x303 ∧ ¬ storesTo (.ldB 0#4) s 0x2FF ∧
    ¬ storesTo .cls s 0x300 :=
  ⟨⟨_, rfl⟩, by unfold storesTo; decide, by unfold storesTo; decide, id⟩

theorem witness_SpecialStateIsKept :
    (∃ t, exec (.addReg 1#4 2#4) State.reset = .next t) ∧ ¬ writesIndex (.addReg 1#4 2#4) ∧
    State.reset.cfg.vfAlias = .operandsFirst ∧
    ∀ x k, Instr.addReg 1#4 2#4 ≠ .ret ∧ Instr.addReg 1#4 2#4 ≠ .call 0#12 ∧ Instr.addReg 1#4 2#4 ≠ .ldDT x ∧
      Instr.addReg 1#4 2#4 ≠ .ldST x ∧ Instr.addReg 1#4 2#4 ≠ .cls ∧ Instr.addReg 1#4 2#4 ≠ .rnd x k :=
  ⟨⟨_, rfl⟩, id, rfl, fun _ _ => by simp⟩

theorem witness_PcIsKeptByOtherOperations :
    State.reset.fault = none ∧ (∃ t, exec .cls State.reset = .next t ∧ t.fault = none ∧ ¬ writesPc .cls) ∧
    ∃ t, exec .ret State.reset = .next t ∧ t.fault ≠ none := ⟨rfl, ⟨_, rfl, rfl, id⟩, _, rfl, by decide⟩

theorem witness_RetPopsTheReturnAddress :
    0 < ({ State.reset with sp := 16 } : State).sp.val ∧ State.reset.sp.val = 0 := by decide

theorem witness_CallPushesTheReturnAddress :
    ({ State.reset with sp := 15 } : State).sp.val < 16 ∧ ({ State.reset with sp := 16 } : State).sp.val = 16 := by decide

theorem witness_UnassignedWordsDoNothingOrFault :
    Instr.nop8 0x8008#16 ∈ [Instr.nop0 0x8008#16, .nop8 0x8008#16, .nopE 0x8008#16, .nopF 0x8008#16] ∧
    (Instr.nop8 0x8008#16).wf = true ∧ State.reset.cfg.unassignedPolicy = .nop ∧
    (bootCfg 0x8008 fun c => { c with unassignedPolicy := .fault }).cfg.unassignedPolicy = .fault := by decide

theorem witness_AluFlags :
    State.reset.cfg.vfAlias = .operandsFirst ∧ (1#4 ≠ 15#4 ∧ 2#4 ≠ 15#4) ∧
    (bootCfg 0x8124 fun c => { c with vfAlias := .any }).cfg.vfAlias = .any := by decide

theorem witness_VfAliasAnyLeavesFreeValues :
    (bootCfg 0x8F14 fun c => { c with vfAlias := .any }).cfg.vfAlias = .any ∧
    Instr.addReg 1#4 15#4 ∈ [Instr.addReg 1#4 15#4, .sub 1#4 15#4, .subn 1#4 15#4] ∧
    Instr.shl 15#4 1#4 ∈ [Instr.shr 15#4 1#4, .shl 15#4 1#4] := by decide

theorem witness_TimerMoves : State.reset.fault = none ∧ State.reset.cfg.timerMode = .perCycle := by decide

/-- The draw of glyph 0 at the origin. -/
def drawing : State := { boot 0xD005 with i := 0x050#16 }

theorem rowFits_drawing : ∀ j, j < (5#4 : Nibble).toNat → drawing.rowFits 0#4 0#4 j := by
  unfold State.rowFits State.bitFaults State.spriteSets; decide

theorem witness_DrwXorsTheSprite :
    (∀ j, j < (5#4 : Nibble).toNat → drawing.rowFits 0#4 0#4 j) ∧
    (∀ j, j < (0#4 : Nibble).toNat → ({ State.reset with i := 0x1000#16 } : State).rowFits 0#4 0#4 j) ∧
    drawing.spriteCovers 0#4 0#4 5#4 0 3 ∧ drawing.cell 0 3 = false ∧
    ({ drawing with fb := glyph0 } : State).cell 0 3 = true :=
  ⟨rowFits_drawing, fun _ h => absurd h (by simp),
    ⟨0, 3, by decide, by decide, by unfold State.spriteSets; decide, by decide, by decide⟩, by decide, by decide⟩

theorem witness_DrwReportsTheFirstFault_bounds :
    let s := { State.reset with i := 0xFFE#16 }
    2 < (3#4 : Nibble).toNat ∧ (∀ m, m < 2 → s.rowFits 0#4 0#4 m) ∧ 4096 ≤ s.i.toNat + 2 := by
  refine ⟨by decide, ?_, by decide⟩
  unfold State.rowFits State.bitFaults State.spriteSets; decide

theorem witness_DrwReportsTheFirstFault_edge :
    let s := { drawing with v := (drawing.setReg 0#4 61#8).v }
    0 < (5#4 : Nibble).toNat ∧ (∀ m, m < 0 → s.rowFits 0#4 1#4 m) ∧ s.i.toNat + 0 < 4096 ∧ s.bitFaults 0#4 1#4 0 3 ∧
    ∀ m, m < 3 → ¬ s.bitFaults 0#4 1#4 0 m := by
  refine ⟨by decide, fun m h => absurd h (Nat.not_lt_zero m), by decide, ?_, ?_⟩ <;>
    (unfold State.bitFaults State.spriteSets; decide)

/-- The second draw may start from the state the first one left. -/
theorem witness_DrawingTwiceRestoresTheFramebuffer :
    (∀ j, j < (5#4 : Nibble).toNat → drawing.rowFits 0#4 0#4 j) ∧
    ∃ t, exec (.drw 0#4 0#4 5#4) drawing = .next t ∧ t.cfg = drawing.cfg ∧ t.i = drawing.i ∧
      t.reg 0#4 = drawing.reg 0#4 ∧
      (∀ j, j < (5#4 : Nibble).toNat → t.byteAt (drawing.i.toNat + j) = drawing.byteAt (drawing.i.toNat + j)) ∧
      drawing.cell 0 0 = false ∧ t.cell 0 0 = true :=
  ⟨rowFits_drawing, _, rfl, rfl, rfl, rfl, fun _ _ => rfl, by decide, by decide⟩

theorem witness_KeySkipsReadTheNamedKey :
    (((boot 0xE19E).setReg 1#4 15#8).reg 1#4).toNat = (15 : Fin numKeys).val ∧
    16 ≤ (((boot 0xE19E).setReg 1#4 16#8).reg 1#4).toNat := by decide

theorem witness_KeyWaitTakesTheLowestKey :
    (pressed [7, 9])[7] = true ∧ (∀ m : Fin numKeys, m.val < 7 → (pressed [7, 9])[m.val] = false) ∧
    (pressed [15])[15] = true ∧ (∀ m : Fin numKeys, m.val < 15 → (pressed [15])[m.val] = false) ∧
    ∀ m : Fin numKeys, State.reset.keys[m.val] = false := by decide

theorem witness_KeyWaitSpinsUntilAKey :
    let s := boot 0xF30A
    s.fault = none ∧ s.fetch = .ok 0xF30A#16 ∧ decodeWord 0xF30A#16 = .ldVxK 3#4 ∧
    (∀ m : Fin numKeys, s.keys[m.val] = false) ∧ s.cfg.timerMode = .perCycle ∧
    (bootCfg 0xF30A fun c => { c with timerMode := .external }).cfg.timerMode = .external ∧
    ∀ m : Fin numKeys, (pressed [11])[m.val] = decide (m = 11) := by decide

theorem witness_BcdStoresThreeDigits :
    (0xFFD#16 : Word).toNat + 2 < 4096 ∧ (4096 ≤ (0xFFE#16 : Word).toNat + 2 ∧ ∀ m, m < 2 → (0xFFE#16 : Word).toNat + m < 4096) ∧
    (4096 ≤ (0xFFF#16 : Word).toNat + 1 ∧ ∀ m, m < 1 → (0xFFF#16 : Word).toNat + m < 4096) ∧
    (4096 ≤ (0x1000#16 : Word).toNat + 0 ∧ ∀ m, m < 0 → (0x1000#16 : Word).toNat + m < 4096) := by decide

theorem witness_BlocksOfRegisters :
    (0xFF0#16 : Word).toNat + (15#4 : Reg).toNat < 4096 ∧ 15 ≤ (15#4 : Reg).toNat ∧
    (4096 ≤ (0xFF1#16 : Word).toNat + 15 ∧ ∀ m, m < 15 → (0xFF1#16 : Word).toNat + m < 4096) ∧
    (4096 ≤ (0xFFFF#16 : Word).toNat + 0 ∧ ∀ m, m < 0 → (0xFFFF#16 : Word).toNat + m < 4096) := by decide

theorem witness_DumpThenLoadRestoresTheRegisters :
    let s := { boot12 0xF355 0x22#8 0x33#8 with i := 0x400#16 }
    ∃ t u : State, s.i.toNat + (3#4 : Reg).toNat < 4096 ∧ exec (.ldAtI 3#4) s = .next t ∧ u.i = s.i ∧
      (∀ a, u.byteAt a = t.byteAt a) ∧ u.reg 1#4 = 0#8 :=
  ⟨_, { State.setReg (after { boot12 0xF355 0x22#8 0x33#8 with i := 0x400#16 }) 1#4 0#8 with pc := 0x208#16 },
    by decide, rfl, by decide, fun _ => rfl, by decide⟩

theorem witness_StoreThenReadReturnsTheByte : 4095 < 4096 ∧ 4096 ≤ 4096 ∧ Memory.wf State.reset.dflt State.reset.mem :=
  ⟨by decide, by decide, by decide⟩

theorem witness_StoresReachTheNextFetch :
    ∃ t, State.reset.writeByte 0x201 0x12#8 = .ok t ∧ State.reset.pc.toNat + 1 < 4096 ∧ 0x200 = State.reset.pc.toNat ∧
      0x201 = State.reset.pc.toNat + 1 ∧ 0x202 ≠ State.reset.pc.toNat + 1 := ⟨_, rfl, by decide, by decide, by decide, by decide⟩

theorem witness_ResetLeavesTheConstructionState :
    State.reset = State.construct defaultConfig 0 0 ∧ defaultConfig.initPolicy = .zero ∧
    (defaultConfig.fontBase.val + 80 ≤ 0x0A0 ∧ 0x04F < defaultConfig.fontBase.val) := by decide

theorem inv_boot : (boot 0x00E0).Inv where
  memory := by decide
  pcBound := by decide
  stackBound := by decide
  noLatch := by decide
  faultPc := fun _ h => by cases h

theorem witness_StepKeepsTheInvariant : (boot 0x00E0).Inv ∧ ∃ t, step (boot 0x00E0) = .next t := ⟨inv_boot, _, rfl⟩

theorem witness_HostCallsKeepTheInvariant : (boot 0x00E0).Inv := inv_boot

theorem witness_LoadImageStoresOrRefuses :
    (List.replicate 3584 0x12#8).length ≤ 3584 ∧ 3584 < (List.replicate 3585 0x12#8).length := by
  simp only [List.length_replicate]; decide

theorem witness_ExternalTimersTickOnlyByTheHost :
    let s := bootCfg 0x00E0 fun c => { c with timerMode := .external }
    s.cfg.timerMode = .external ∧ s.fault = none ∧ s.fetch = .ok 0x00E0#16 ∧
    (∀ x, decodeWord 0x00E0#16 ≠ .ldDT x ∧ decodeWord 0x00E0#16 ≠ .ldST x) ∧ (∃ t, step s = .next t) ∧
    State.reset.cfg.timerMode = .perCycle := ⟨rfl, rfl, by decide, by decide, ⟨_, rfl⟩, rfl⟩

theorem witness_JumpToSelfChangesOnlyTimers :
    let s := boot 0x1200
    s.fault = none ∧ s.w = none ∧ s.fetch = .ok 0x1200#16 ∧ decodeWord 0x1200#16 = .jp 0x200#12 ∧
    (0x200#12).toNat = s.pc.toNat ∧ s.cfg.timerMode = .perCycle := by decide

end Sys2Proof.Tests
end

section
/-! PROOFS. Reading memory back after a store (20_memory.md R50, R51, R55), and the construction state (10_state.md R38,
R39; 70_reset_and_hazards.md R166, R167). -/

namespace Sys2Proof.Machine

/-! ### A store reads back -/

theorem State.readByte_setByte_self (s : State) {a : Nat} (v : Byte) (h : a < memSize) :
    (s.setByte a v).readByte a = .ok v := by
  rw [State.readByte_of_lt _ h, State.byteAt_setByte, if_pos rfl]

theorem State.byteAt_setByte_ne (s : State) {a b : Nat} (v : Byte) (h : b ≠ a) :
    (s.setByte a v).byteAt b = s.byteAt b := by
  rw [State.byteAt_setByte, if_neg h]

/-- Settles O47: inside memory the store is `setByte`, whose laws give each clause; outside, both accesses fault. -/
theorem storeThenReadReturnsTheByte : Obligations.StoreThenReadReturnsTheByte := by
  intro s a v
  constructor
  case left =>
    intro h
    exact ⟨s.setByte a v, s.writeByte_of_lt v h, s.readByte_setByte_self v h,
      fun _ hb => s.byteAt_setByte_ne v hb, rfl, Memory.wf_write _ a v h⟩
  case right =>
    intro h
    exact ⟨s.writeByte_of_ge v h, s.readByte_of_ge h⟩

/-! ### What the construction sequence holds -/

@[simp] theorem powerUp_zero {α : Type} (zero free : α) : powerUp .zero zero free = zero := rfl

theorem resetByte_font (c : Config) (e : Nat) (k : Fin fontSize) :
    resetByte c e (c.fontBase.val + k.val) = c.font[k.val] := by
  have hk := k.isLt
  rw [resetByte, dif_pos ⟨by omega, by omega⟩]
  simp only [Nat.add_sub_cancel_left]

theorem resetByte_outside_font (c : Config) (e : Nat) {a : Nat}
    (h : a < c.fontBase.val ∨ c.fontBase.val + fontSize ≤ a) :
    resetByte c e a = powerUp c.initPolicy 0#8 (Config.unknownMem e a) := by
  rw [resetByte, dif_neg (by omega)]

theorem noKeys_get (k : Fin numKeys) : noKeys[k.val] = false := by simp [noKeys]

/-- Memory holds the reset contents: no cell is listed yet. -/
theorem State.construct_byteAt (c : Config) (e d : Nat) : (State.construct c e d).byteAt = resetByte c e := rfl

section
variable {c : Config} (hc : c.initPolicy = .zero) (e d : Nat)
include hc

theorem State.construct_byteAt_zero {a : Nat} (h : a < c.fontBase.val ∨ c.fontBase.val + fontSize ≤ a) :
    (State.construct c e d).byteAt a = 0#8 := by
  rw [State.construct_byteAt, resetByte_outside_font c e h, hc, powerUp_zero]

theorem State.construct_reg_zero (r : Reg) : (State.construct c e d).reg r = 0#8 := by
  simp [State.reg, State.construct, resetV, hc]

theorem State.construct_stack_zero (k : Fin stackDepth) : (State.construct c e d).stack[k.val] = 0#16 := by
  simp [State.construct, resetStack, hc]

theorem State.construct_cell_zero (r : Fin fbHeight) (k : Fin fbWidth) :
    (State.construct c e d).cell r k = false := by
  simp [State.cell, State.construct, resetFramebuffer, hc]

/-- I and the two timers (R38). -/
theorem State.construct_scalars_zero :
    (State.construct c e d).i = 0#16 ∧ (State.construct c e d).dt = 0#8 ∧ (State.construct c e d).st = 0#8 := by
  simp [State.construct, hc]

end

/-- Settles O49: the default values and the host's Reset by definition, the rest field by field from the laws of
`construct`. -/
theorem resetLeavesTheConstructionState : Obligations.ResetLeavesTheConstructionState := by
  refine ⟨rfl, ⟨rfl, rfl, rfl, rfl, rfl, rfl, rfl⟩, fun _ _ => rfl, ?_⟩
  rintro c e d _ rfl
  refine ⟨rfl, rfl, noKeys_get, rfl, rfl, resetByte_font c e, fun hc => ?_⟩
  obtain ⟨hi, hdt, hst⟩ := State.construct_scalars_zero hc e d
  exact ⟨fun _ => State.construct_byteAt_zero hc e d, State.construct_reg_zero hc e d, hi, hdt, hst,
    State.construct_stack_zero hc e d, State.construct_cell_zero hc e d⟩

end Sys2Proof.Machine
end

section
/-! PROOFS. The frames of the instructions (10_state.md R21 to R28, R42): what an instruction does not write it keeps,
fault entry included. -/

namespace Sys2Proof.Machine

variable {i : Instr} {s t : State}

/-! ### Which fields an instruction may write -/

/-- `s` with the fields that instruction `i` may write (R42) as they stand in `t`. -/
def overlay (i : Instr) (s t : State) : State :=
  match i with
  | .cls => { s with fb := t.fb }
  | .ret => { s with pc := t.pc, sp := t.sp }
  | .call _ => { s with pc := t.pc, sp := t.sp, stack := t.stack }
  | .jp _ | .jpV0 _ | .seImm _ _ | .sneImm _ _ | .seReg _ _ | .sneReg _ _ | .skp _ | .sknp _ => { s with pc := t.pc }
  | .ldImm _ _ | .addImm _ _ | .ldReg _ _ | .orReg _ _ | .andReg _ _ | .xorReg _ _ | .ldVxDT _ | .ldVxAtI _ =>
    { s with v := t.v }
  | .rnd _ _ | .addReg _ _ | .sub _ _ | .shr _ _ | .subn _ _ | .shl _ _ => { s with v := t.v, draws := t.draws }
  | .ldVxK _ => { s with v := t.v, pc := t.pc }
  | .drw _ _ _ => { s with v := t.v, fb := t.fb }
  | .ldI _ | .addI _ | .ldF _ => { s with i := t.i }
  | .ldDT _ => { s with dt := t.dt }
  | .ldST _ => { s with st := t.st }
  | .ldB _ | .ldAtI _ => { s with mem := t.mem }
  | .nop0 _ | .nop8 _ | .nopE _ | .nopF _ => s

theorem Effect.eq_overlay (h : Effect i s t) : t = overlay i s t := by
  cases i
  case addReg | sub | shr | subn | shl => exact h.1.1
  case call | ldImm | addImm | ldReg | orReg | andReg | xorReg | ldVxDT | ldVxAtI | rnd | ldVxK | drw | ldB | ldAtI =>
    exact h.1
  all_goals exact h

theorem overlay_i (hi : ¬ writesIndex i) : (overlay i s t).i = s.i := by
  cases i
  case ldI | addI | ldF => exact absurd trivial hi
  all_goals rfl

theorem overlay_pc (hi : ¬ writesPc i) : (overlay i s t).pc = s.pc := by
  cases i
  case ret | jp | call | seImm | sneImm | seReg | sneReg | jpV0 | skp | sknp | ldVxK => exact absurd trivial hi
  all_goals rfl

theorem overlay_sp (hi : ∀ a, i ≠ .ret ∧ i ≠ .call a) : (overlay i s t).sp = s.sp := by
  cases i
  case ret => exact absurd rfl (hi 0).1
  case call a => exact absurd rfl (hi a).2
  all_goals rfl

theorem overlay_stack (hi : ∀ a, i ≠ .call a) : (overlay i s t).stack = s.stack := by
  cases i
  case call a => exact absurd rfl (hi a)
  all_goals rfl

theorem overlay_dt (hi : ∀ x, i ≠ .ldDT x) : (overlay i s t).dt = s.dt := by
  cases i
  case ldDT x => exact absurd rfl (hi x)
  all_goals rfl

theorem overlay_st (hi : ∀ x, i ≠ .ldST x) : (overlay i s t).st = s.st := by
  cases i
  case ldST x => exact absurd rfl (hi x)
  all_goals rfl

theorem overlay_mem (hi : ∀ x, i ≠ .ldB x ∧ i ≠ .ldAtI x) : (overlay i s t).mem = s.mem := by
  cases i
  case ldB x => exact absurd rfl (hi x).1
  case ldAtI x => exact absurd rfl (hi x).2
  all_goals rfl

theorem overlay_fb (hi : ∀ x y n, i ≠ .cls ∧ i ≠ .drw x y n) : (overlay i s t).fb = s.fb := by
  cases i
  case cls => exact absurd rfl (hi 0 0 0).1
  case drw x y n => exact absurd rfl (hi x y n).2
  all_goals rfl

/-- No instruction writes the keypad, W, FAULT, the parameters or the reset counter. -/
theorem overlay_fixed (i : Instr) (s t : State) :
    (overlay i s t).keys = s.keys ∧ (overlay i s t).w = s.w ∧ (overlay i s t).fault = s.fault ∧
    (overlay i s t).cfg = s.cfg ∧ (overlay i s t).epoch = s.epoch := by
  cases i <;> exact ⟨rfl, rfl, rfl, rfl, rfl⟩

theorem overlay_dflt (i : Instr) (s t : State) : (overlay i s t).dflt = s.dflt := by
  obtain ⟨-, -, -, hcfg, hepoch⟩ := overlay_fixed i s t
  rw [State.dflt, hcfg, hepoch, State.dflt]

/-! ### What an effect keeps -/

theorem Effect.pc_eq (h : Effect i s t) (hi : ¬ writesPc i) : t.pc = s.pc :=
  (congrArg State.pc h.eq_overlay).trans (overlay_pc hi)

theorem Effect.fault_eq (h : Effect i s t) : t.fault = s.fault := by
  obtain ⟨-, -, hfault, -⟩ := overlay_fixed i s t
  exact (congrArg State.fault h.eq_overlay).trans hfault

theorem Effect.draws_eq (h : Effect i s t) (hi : ∀ x k, i ≠ .rnd x k) (ha : s.cfg.vfAlias = .operandsFirst) :
    t.draws = s.draws := by
  have he : t.draws = (overlay i s t).draws := congrArg State.draws h.eq_overlay
  cases i
  case rnd x k => exact absurd rfl (hi x k)
  case addReg | sub | shr | subn | shl => exact h.1.2 ha
  all_goals exact he

theorem Effect.reg_eq {r : Reg} (h : Effect i s t) (hi : ¬ writesReg i r) : t.reg r = s.reg r := by
  cases i
  case addReg | sub | shr | subn | shl => exact h.2 r (fun e => hi (.inl e)) (fun e => hi (.inr e))
  case ldImm | addImm | ldReg | orReg | andReg | xorReg | rnd | ldVxDT | ldVxK | drw => exact h.2 r hi
  case ldVxAtI => exact h.2 r (Nat.not_le.1 hi)
  all_goals exact State.reg_congr (congrArg State.v h.eq_overlay) r

/-! ### What an instruction keeps -/

/-- A part of the state that neither the instruction's effect nor fault entry changes is kept. -/
theorem exec_keeps {α : Type} (f : State → α) (h : exec i s = .next t) (he : f (overlay i s t) = f s)
    (hf : ∀ k, f (s.takeFault k) = f s) : f t = f s := by
  obtain h | ⟨k, rfl⟩ := exec_effect h
  · exact (congrArg f h.eq_overlay).trans he
  · exact hf k

/-- Settles O15: the registers outside an instruction's destinations are kept by its effect (`Effect.reg_eq`), and all
of them by fault entry. -/
theorem registersOutsideTheDestinationsAreKept : Obligations.RegistersOutsideTheDestinationsAreKept := by
  intro i s t r h hr
  obtain h | ⟨k, rfl⟩ := exec_effect h
  · exact h.reg_eq hr
  · rfl

theorem exec_stack_getElem (h : exec i s = .next t) (k : Fin stackDepth) (hk : k.val ≠ s.sp.val) :
    t.stack[k.val] = s.stack[k.val] := by
  obtain h | ⟨_, rfl⟩ := exec_effect h
  · have he : t.stack[k.val] = (overlay i s t).stack[k.val] := congrArg (·.stack[k.val]) h.eq_overlay
    cases i
    case call => exact h.2 k hk
    all_goals exact he
  · rfl

theorem exec_draws (h : exec i s = .next t) (hi : ∀ x k, i ≠ .rnd x k) (ha : s.cfg.vfAlias = .operandsFirst) :
    t.draws = s.draws := by
  obtain h | ⟨_, rfl⟩ := exec_effect h
  · exact h.draws_eq hi ha
  · rfl

/-- Settles O17, field by field from `overlay`. -/
theorem specialStateIsKept : Obligations.SpecialStateIsKept := by
  intro i s t h
  obtain ⟨-, hw, -, hcfg, hepoch⟩ := overlay_fixed i s t
  exact ⟨fun hi => exec_keeps State.i h (overlay_i hi) fun _ => rfl,
    fun hi => exec_keeps State.sp h (overlay_sp hi) fun _ => rfl,
    fun hi => exec_keeps State.stack h (overlay_stack hi) fun _ => rfl,
    exec_stack_getElem h,
    fun hi => exec_keeps State.dt h (overlay_dt hi) fun _ => rfl,
    fun hi => exec_keeps State.st h (overlay_st hi) fun _ => rfl,
    fun hi => exec_keeps State.fb h (overlay_fb hi) fun _ => rfl,
    exec_draws h,
    exec_keeps State.w h hw fun _ => rfl,
    exec_keeps State.cfg h hcfg fun _ => rfl,
    exec_keeps State.epoch h hepoch fun _ => rfl⟩

/-- Settles O18: FAULT tells the two outcomes of `exec_effect` apart, since no effect writes it. -/
theorem pcIsKeptByOtherOperations : Obligations.PcIsKeptByOtherOperations := by
  intro i s t hs h
  obtain h | ⟨k, rfl⟩ := exec_effect h
  · exact ⟨fun _ hi => h.pc_eq hi, fun hf => absurd (h.fault_eq.trans hs) hf⟩
  · exact ⟨fun hf _ => (by cases hf), fun _ => rfl⟩

end Sys2Proof.Machine
end

section
/-! PROOFS. The keypad (10_state.md R34; 60_exceptions.md R159): no instruction writes it, and outside the key
instructions every shared operation commutes with `SetKeys`. -/

namespace Sys2Proof.Machine

/-! ### The keypad plays no part outside the key instructions -/

section
variable (s : State) (k : Vector Bool numKeys)

@[simp] theorem State.readByte_setKeys (a : Nat) : (s.setKeys k).readByte a = s.readByte a := rfl
@[simp] theorem State.indexAddr_setKeys (m : Nat) : (s.setKeys k).indexAddr m = s.indexAddr m := rfl
@[simp] theorem State.originCol_setKeys (x : Reg) : (s.setKeys k).originCol x = s.originCol x := rfl
@[simp] theorem State.originRow_setKeys (y : Reg) : (s.setKeys k).originRow y = s.originRow y := rfl

theorem State.writeByte_setKeys (a : Nat) (b : Byte) :
    (s.setKeys k).writeByte a b = (s.writeByte a b).map (·.setKeys k) := by
  unfold State.writeByte
  split <;> rfl

theorem State.writeBytes_setKeys (a : Nat) (bs : List Byte) :
    (s.setKeys k).writeBytes a bs = (s.writeBytes a bs).map (·.setKeys k) := by
  induction bs generalizing s a with
  | nil => rfl
  | cons b bs ih =>
    simp only [State.writeBytes, State.writeByte_setKeys]
    cases s.writeByte a b with
    | ok u => exact ih u (a + 1)
    | error e => rfl

theorem State.loadRegs_setKeys (ks : List Nat) :
    (s.setKeys k).loadRegs ks = (s.loadRegs ks).map (·.setKeys k) := by
  induction ks generalizing s with
  | nil => rfl
  | cons m ks ih =>
    simp only [State.loadRegs, State.indexAddr_setKeys, State.readByte_setKeys]
    cases s.readByte (s.indexAddr m) with
    | ok b => exact ih (s.setReg (BitVec.ofNat 4 m) b)
    | error e => rfl

theorem drawRows_setKeys (xo yo : Nat) (rows : List Nat) (d : Canvas) :
    drawRows (s.setKeys k) xo yo rows d = drawRows s xo yo rows d := by
  induction rows generalizing d with
  | nil => rfl
  | cons r rows ih =>
    simp only [drawRows, State.indexAddr_setKeys, State.readByte_setKeys, State.setKeys_cfg, ih]

theorem State.writeFlagged_setKeys (x : Reg) (al f : Bool) (b : Byte) :
    (s.setKeys k).writeFlagged x al f b = (s.writeFlagged x al f b).setKeys k := by
  unfold State.writeFlagged State.setFlagAndRegFree
  simp only [State.setKeys_cfg]
  split
  · rfl
  · split
    · split <;> rfl
    · rfl

theorem State.push_setKeys (a : Word) : (s.setKeys k).push a = (s.push a).map (·.setKeys k) := by
  by_cases h : s.sp.val < stackDepth
  · rw [s.push_ok a h, (s.setKeys k).push_ok a h]
    rfl
  · have hfull : s.sp.val = stackDepth := by have := s.sp.isLt; omega
    rw [s.push_full a hfull, (s.setKeys k).push_full a hfull]
    rfl

theorem State.pop_setKeys : (s.setKeys k).pop = s.pop.map fun p => (p.1, p.2.setKeys k) := by
  by_cases h : s.sp.val = 0
  · rw [s.pop_empty h, (s.setKeys k).pop_empty h]
    rfl
  · rw [s.pop_ok (Nat.pos_of_ne_zero h), (s.setKeys k).pop_ok (Nat.pos_of_ne_zero h)]
    rfl

theorem State.skipIf_setKeys (b : Bool) : (s.setKeys k).skipIf b = (s.skipIf b).setKeys k := by
  cases b <;> rfl

theorem settle_setKeys {r q : Except Fault State} {t : State} (hq : q = r.map (·.setKeys k))
    (h : settle s r = .next t) : settle (s.setKeys k) q = .next (t.setKeys k) := by
  subst hq
  obtain rfl | ⟨e, rfl, rfl⟩ := settle_cases s h <;> rfl

theorem execUnassigned_setKeys (w : Word) {t : State} (h : execUnassigned w s = .next t) :
    execUnassigned w (s.setKeys k) = .next (t.setKeys k) := by
  refine settle_setKeys s k ?_ h
  rw [State.setKeys_cfg]
  cases s.cfg.unassignedPolicy <;> rfl
end

/-- An operation other than the key instructions commutes with `SetKeys` (R34). -/
theorem exec_setKeys {i : Instr} {s t : State} (k : Vector Bool numKeys) (h : exec i s = .next t)
    (hi : ∀ x, i ≠ .skp x ∧ i ≠ .sknp x ∧ i ≠ .ldVxK x) : exec i (s.setKeys k) = .next (t.setKeys k) := by
  cases i
  case skp x => exact absurd rfl (hi x).1
  case sknp x => exact absurd rfl (hi x).2.1
  case ldVxK x => exact absurd rfl (hi x).2.2
  case nop0 | nop8 | nopE | nopF => exact execUnassigned_setKeys s k _ h
  case seImm | sneImm | seReg | sneReg =>
    cases h
    exact congrArg Host.Outcome.next (s.skipIf_setKeys k _)
  case addReg | sub | shr | subn | shl =>
    cases h
    exact congrArg Host.Outcome.next (s.writeFlagged_setKeys k _ _ _ _)
  case ret =>
    refine settle_setKeys s k ?_ h
    rw [State.pop_setKeys]
    cases s.pop <;> rfl
  case call =>
    refine settle_setKeys s k ?_ h
    rw [State.setKeys_pc, State.push_setKeys]
    cases s.push s.pc <;> rfl
  case drw x y n =>
    refine settle_setKeys s k ?_ h
    rw [State.originCol_setKeys, State.originRow_setKeys, State.setKeys_fb, drawRows_setKeys]
    cases drawRows s (s.originCol x) (s.originRow y) (List.range n.toNat) ⟨s.fb, false⟩ <;> rfl
  case ldB | ldAtI => exact settle_setKeys s k (s.writeBytes_setKeys k _ _) h
  case ldVxAtI => exact settle_setKeys s k (s.loadRegs_setKeys k _) h
  all_goals
    cases h
    rfl

/-- Settles O14: no effect writes the keypad, and the other instructions commute with `SetKeys`. -/
theorem keypadIsReadOnlyToInstructions : Obligations.KeypadIsReadOnlyToInstructions := by
  intro i s t k h
  obtain ⟨hkeys, -⟩ := overlay_fixed i s t
  exact ⟨exec_keeps State.keys h hkeys fun _ => rfl, exec_setKeys k h, rfl⟩

end Sys2Proof.Machine
end

section
/-! PROOFS. The invariant (10_state.md R26, R36; 60_exceptions.md R142, R143): what one operation makes of each part of
it, and the whole of it through one cycle and at reset. -/

namespace Sys2Proof.Machine

variable {i : Instr} {s t : State}

/-! ### PC and the stack after one operation -/

/-- Where an operation begun in `s` can leave PC (R25, R42, R142). -/
inductive PcAfter (s : State) : Word → Prop where
  | kept : PcAfter s s.pc
  | skipped : PcAfter s (s.pc + 2#16)
  | rewound : PcAfter s (s.pc - 2#16)
  | jumped (nnn : Addr12) : PcAfter s (zext16 nnn)
  | offset (nnn : Addr12) : PcAfter s (s.offsetTarget nnn)
  | returned (k : Fin stackDepth) (live : k.val < s.sp.val) : PcAfter s s.stack[k.val]

theorem pcAfter_skipIf (s : State) (b : Bool) : PcAfter s (s.skipIf b).pc := by
  cases b
  · exact .kept
  · exact .skipped

/-- RET takes the top entry into PC and leaves the entries, or faults (R85). -/
theorem execRet_cases (h : exec .ret s = .next t) :
    (∃ k : Fin stackDepth, s.sp.val = k.val + 1 ∧ t.sp.val = k.val ∧ t.pc = s.stack[k.val] ∧ t.stack = s.stack) ∨
    ∃ e, t = s.takeFault e := by
  obtain hp | ⟨e, -, rfl⟩ := settle_cases s h
  · by_cases h0 : s.sp.val = 0
    · simp [s.pop_empty h0] at hp
    · rw [s.pop_ok (Nat.pos_of_ne_zero h0)] at hp
      cases hp
      have := s.sp.isLt
      exact .inl ⟨⟨s.sp.val - 1, by omega⟩, by simp only; omega, rfl, rfl, rfl⟩
  · exact .inr ⟨e, rfl⟩

/-- CALL stores PC at `S[SP]`, raises SP and jumps, or faults (R87). -/
theorem execCall_cases {nnn : Addr12} (h : exec (.call nnn) s = .next t) :
    (t.sp.val = s.sp.val + 1 ∧ t.pc = zext16 nnn ∧
      ∀ k : Fin stackDepth, t.stack[k.val] = if k.val = s.sp.val then s.pc else s.stack[k.val]) ∨
    ∃ e, t = s.takeFault e := by
  obtain hp | ⟨e, -, rfl⟩ := settle_cases s h
  · by_cases h0 : s.sp.val = stackDepth
    · simp [s.push_full _ h0] at hp
    · rw [s.push_ok s.pc (by have := s.sp.isLt; omega)] at hp
      cases hp
      refine .inl ⟨rfl, rfl, fun k => ?_⟩
      simp only [State.jumpTo_stack, Vector.getElem_set, eq_comm (a := s.sp.val)]
  · exact .inr ⟨e, rfl⟩

theorem exec_pcAfter (h : exec i s = .next t) : PcAfter s t.pc := by
  by_cases hi : writesPc i
  case neg =>
    obtain h | ⟨e, rfl⟩ := exec_effect h
    · rw [h.pc_eq hi]
      exact .kept
    · exact .rewound
  case pos =>
    cases i
    case ret =>
      obtain ⟨k, hk, -, hpc, -⟩ | ⟨e, rfl⟩ := execRet_cases h
      · rw [hpc]
        exact .returned k (by omega)
      · exact .rewound
    case call nnn =>
      obtain ⟨-, hpc, -⟩ | ⟨e, rfl⟩ := execCall_cases h
      · rw [hpc]
        exact .jumped nnn
      · exact .rewound
    case jp nnn =>
      cases h
      exact .jumped nnn
    case jpV0 nnn =>
      cases h
      exact .offset nnn
    case seImm | sneImm | seReg | sneReg =>
      cases h
      exact pcAfter_skipIf s _
    case skp | sknp =>
      obtain hk | ⟨e, -, rfl⟩ := settle_cases s h
      · split at hk <;> cases hk
        exact pcAfter_skipIf s _
      · exact .rewound
    case ldVxK =>
      simp only [exec, execLdVxK] at h
      split at h <;> cases h
      · exact .kept
      · exact .rewound
    all_goals exact absurd hi id

/-- A live return address was live before, or is the PC that CALL stored. -/
theorem exec_live_entry (h : exec i s = .next t) (k : Fin stackDepth) (hk : k.val < t.sp.val) :
    t.stack[k.val] = s.pc ∨ k.val < s.sp.val ∧ t.stack[k.val] = s.stack[k.val] := by
  by_cases hi : ∀ a, i ≠ .ret ∧ i ≠ .call a
  case pos =>
    have hsp := exec_keeps State.sp h (overlay_sp hi) fun _ => rfl
    have hstack := exec_keeps State.stack h (overlay_stack fun a => (hi a).2) fun _ => rfl
    rw [hstack, ← hsp]
    exact .inr ⟨hk, rfl⟩
  case neg =>
    obtain rfl | ⟨a, rfl⟩ : i = .ret ∨ ∃ a, i = .call a := by grind
    · obtain ⟨m, hm, htm, -, hstack⟩ | ⟨e, rfl⟩ := execRet_cases h
      · rw [hstack]
        exact .inr ⟨by omega, rfl⟩
      · exact .inr ⟨hk, rfl⟩
    · obtain ⟨hsp, -, hstack⟩ | ⟨e, rfl⟩ := execCall_cases h
      · rw [hstack k]
        split
        · exact .inl rfl
        · exact .inr ⟨by omega, rfl⟩
      · exact .inr ⟨hk, rfl⟩

/-! ### Memory and FAULT after one operation -/

/-- A block store keeps the canonical form, whether it completes or faults. -/
theorem settle_writeBytes_wf {a : Nat} {bs : List Byte} (h : settle s (s.writeBytes a bs) = .next t)
    (hw : Memory.wf s.dflt s.mem) : Memory.wf t.dflt t.mem := by
  obtain hb | ⟨e, -, rfl⟩ := settle_cases s h
  · obtain ⟨-, -, -, -, hwf⟩ := State.writeBytes_ok hb
    exact hwf hw
  · exact hw

theorem exec_memory_wf (h : exec i s = .next t) (hw : Memory.wf s.dflt s.mem) : Memory.wf t.dflt t.mem := by
  by_cases hi : ∀ x, i ≠ .ldB x ∧ i ≠ .ldAtI x
  case pos =>
    have hmem := exec_keeps State.mem h (overlay_mem hi) fun _ => rfl
    have hdflt := exec_keeps State.dflt h (overlay_dflt i s t) fun _ => rfl
    rwa [hmem, hdflt]
  case neg =>
    obtain ⟨x, rfl | rfl⟩ : ∃ x, i = .ldB x ∨ i = .ldAtI x := by grind
    · exact settle_writeBytes_wf h hw
    · exact settle_writeBytes_wf h hw

/-- A fault record names the PC it left (R142). -/
theorem exec_fault_names_pc (h : exec i s = .next t) (hs : s.fault = none) (r : FaultRecord) (hr : t.fault = some r) :
    r.p = t.pc := by
  obtain h | ⟨e, rfl⟩ := exec_effect h
  · rw [h.fault_eq, hs] at hr
    cases hr
  · cases hr
    rfl

/-! ### The bounds -/

theorem toNat_zext16_le (nnn : Addr12) : (zext16 nnn).toNat ≤ 0xFFF := by
  have := nnn.isLt
  simp only [zext16, BitVec.toNat_ofNat]
  omega

theorem State.toNat_offsetTarget_le (s : State) (nnn : Addr12) : (s.offsetTarget nnn).toNat ≤ 0x10FE := by
  have := nnn.isLt
  have := (s.reg v0).isLt
  simp only [State.offsetTarget, BitVec.toNat_ofNat]
  omega

/-- R26: PC stays at most 0x10FE where the operation begins right after a fetch, which leaves PC between 2 and
0x1000. -/
theorem PcAfter.toNat_le {p : Word} (h : PcAfter s p) (hlo : 2 ≤ s.pc.toNat) (hhi : s.pc.toNat ≤ 0x1000)
    (hstack : ∀ k : Fin stackDepth, k.val < s.sp.val → s.stack[k.val].toNat ≤ 0x1000) : p.toNat ≤ 0x10FE := by
  cases h with
  | kept => omega
  | skipped => bv_omega
  | rewound => bv_omega
  | jumped nnn => have := toNat_zext16_le nnn; omega
  | offset nnn => exact s.toNat_offsetTarget_le nnn
  | returned k live => have := hstack k live; omega

/-! ### One cycle -/

@[simp] theorem State.endCycle_dflt (s : State) : s.endCycle.dflt = s.dflt := by
  rw [State.dflt, State.endCycle_cfg, State.endCycle_epoch, State.dflt]

/-- After a fetch that succeeds PC holds `P + 2`, at most 0x1000 (R24). -/
theorem State.latch_pc_bounds {w : Word} (h : s.fetch = .ok w) (u : Word) :
    2 ≤ (s.latch u).pc.toNat ∧ (s.latch u).pc.toNat ≤ 0x1000 := by
  have hpc : s.pc.toNat + 1 < 4096 := (State.fetch_eq_ok.1 h).1
  rw [State.latch_pc]
  constructor <;> bv_omega

theorem State.Inv.enterFault {k : Fault} {w : Option Word} (h : s.Inv) : (s.enterFault k s.pc w).Inv where
  memory := h.memory
  pcBound := h.pcBound
  stackBound := h.stackBound
  noLatch := h.noLatch
  faultPc r hr := by cases hr; rfl

/-- A cycle that fetches and executes: each part of the invariant from what the operation does to it. -/
theorem State.Inv.endCycle_of_exec {w : Word} {u : State} (h : s.Inv) (hs : s.fault = none) (hf : s.fetch = .ok w)
    (he : exec i (s.latch w) = .next u) : u.endCycle.Inv := by
  obtain ⟨hlo, hhi⟩ := State.latch_pc_bounds hf w
  refine { memory := ?memory, pcBound := ?pcBound, stackBound := ?stackBound, noLatch := u.endCycle_w,
           faultPc := ?faultPc }
  case memory =>
    rw [State.endCycle_dflt, State.endCycle_mem]
    exact exec_memory_wf he h.memory
  case pcBound =>
    rw [State.endCycle_pc]
    exact (exec_pcAfter he).toNat_le hlo hhi h.stackBound
  case stackBound =>
    intro k hk
    simp only [State.endCycle_stack, State.endCycle_sp] at hk ⊢
    obtain hk | ⟨hlive, hk⟩ := exec_live_entry he k hk
    · rwa [hk]
    · rw [hk]
      exact h.stackBound k hlive
  case faultPc =>
    intro r hr
    rw [State.endCycle_fault] at hr
    rw [State.endCycle_pc]
    exact exec_fault_names_pc he hs r hr

/-- Settles O51: each of the three things a cycle can do keeps the invariant. -/
theorem stepKeepsTheInvariant : Obligations.StepKeepsTheInvariant := by
  intro s t hinv h
  obtain ⟨-, rfl⟩ | ⟨-, k, -, rfl⟩ | ⟨hs, w, u, hf, he, rfl⟩ := step_cases h
  · exact hinv
  · exact hinv.enterFault
  · exact hinv.endCycle_of_exec hs hf he

/-! ### Reset -/

/-- The construction sequence meets the invariant under all parameters, at every reset. -/
theorem State.construct_inv (c : Config) (e d : Nat) : (State.construct c e d).Inv where
  memory := Memory.wf_nil _
  pcBound := (by decide : resetPc.toNat ≤ 0x10FE)
  stackBound k hk := absurd hk (Nat.not_lt_zero _)
  noLatch := rfl
  faultPc r hr := by cases hr

/-- Settles O50: reset is the construction sequence. -/
theorem resetMeetsTheInvariant : Obligations.ResetMeetsTheInvariant := State.construct_inv _ _ _

end Sys2Proof.Machine
end

section
/-! PROOFS. What reaches memory (20_memory.md R47, R49, R50, R59): the bytes an instruction stores to, and the words a
store is fetched in. -/

namespace Sys2Proof.Machine

variable {i : Instr} {s t : State}

/-! ### The bytes an instruction leaves -/

theorem Effect.byteAt_eq {a : Nat} (h : Effect i s t) (ha : ¬ storesTo i s a) : t.byteAt a = s.byteAt a := by
  have he : t.byteAt a = (overlay i s t).byteAt a := congrArg (State.byteAt · a) h.eq_overlay
  cases i
  case ldB | ldAtI => exact h.2 a ha
  all_goals exact he

/-- Settles O16: the other bytes are kept by an instruction's effect (`Effect.byteAt_eq`), and all of them by fault
entry. -/
theorem memoryOutsideTheStoredBytesIsKept : Obligations.MemoryOutsideTheStoredBytesIsKept := by
  intro i s t a h ha
  obtain h | ⟨k, rfl⟩ := exec_effect h
  · exact h.byteAt_eq ha
  · rfl

/-! ### A store and the next fetch -/

theorem State.eq_setByte_of_writeByte {a : Nat} {v : Byte} (h : s.writeByte a v = .ok t) : t = s.setByte a v := by
  by_cases ha : a < memSize
  · rw [s.writeByte_of_lt v ha] at h
    cases h
    rfl
  · rw [s.writeByte_of_ge v (Nat.not_lt.1 ha)] at h
    cases h

section
variable (v : Byte) (h : s.pc.toNat + 1 < memSize)
include h

theorem State.fetch_setByte_high :
    (s.setByte s.pc.toNat v).fetch = .ok (wordOfBytes v (s.byteAt (s.pc.toNat + 1))) := by
  rw [(s.setByte _ v).fetch_of_lt h, State.setByte_pc, State.byteAt_setByte, if_pos rfl,
    State.byteAt_setByte_ne _ _ (Nat.succ_ne_self _)]

theorem State.fetch_setByte_low :
    (s.setByte (s.pc.toNat + 1) v).fetch = .ok (wordOfBytes (s.byteAt s.pc.toNat) v) := by
  rw [(s.setByte _ v).fetch_of_lt h, State.setByte_pc, State.byteAt_setByte_ne _ _ (Nat.succ_ne_self _).symm,
    State.byteAt_setByte, if_pos rfl]

theorem State.fetch_setByte_of_ne {a : Nat} (h0 : a ≠ s.pc.toNat) (h1 : a ≠ s.pc.toNat + 1) :
    (s.setByte a v).fetch = s.fetch := by
  rw [(s.setByte a v).fetch_of_lt h, State.setByte_pc, State.byteAt_setByte_ne _ _ h0.symm,
    State.byteAt_setByte_ne _ _ h1.symm, s.fetch_of_lt h]

end

/-- Settles O48: the store is `setByte`, whose byte is the high one of the fetched word, the low one, or neither. -/
theorem storesReachTheNextFetch : Obligations.StoresReachTheNextFetch := by
  intro s t a v hw hpc
  obtain rfl := State.eq_setByte_of_writeByte hw
  refine ⟨?high, ?low, State.fetch_setByte_of_ne v hpc⟩
  case high =>
    rintro rfl
    exact ⟨_, State.fetch_setByte_high v hpc, toNat_wordOfBytes _ _⟩
  case low =>
    rintro rfl
    exact ⟨_, State.fetch_setByte_low v hpc, toNat_wordOfBytes _ _⟩

end Sys2Proof.Machine
end

section
/-! PROOFS. The host's calls (20_memory.md R56, R61, R62; 60_exceptions.md R157; 70_reset_and_hazards.md R166): each
answers, and keeps the invariant. -/

namespace Sys2Proof.Machine

variable {s t : State}

/-! ### Every operation and every cycle answers -/

/-- An operation that can fault settles; the others answer outright. -/
theorem exec_answers (i : Instr) (s : State) : ∃ t, exec i s = .next t := by
  cases i
  case ret | call | drw | skp | sknp | ldB | ldAtI | ldVxAtI | nop0 | nop8 | nopE | nopF =>
    exact settle_answers s _
  case ldVxK =>
    simp only [exec, execLdVxK]
    cases s.firstKey <;> exact ⟨_, rfl⟩
  all_goals exact ⟨_, rfl⟩

theorem step_answers (s : State) : ∃ t, step s = .next t := by
  by_cases hs : s.fault = none
  case neg => exact ⟨s, step_halted hs⟩
  case pos =>
    cases hf : s.fetch with
    | error k => exact ⟨_, step_fetch_fault hs hf⟩
    | ok w =>
      obtain ⟨t, ht⟩ := exec_answers (decodeWord w) (s.latch w)
      exact ⟨_, step_runs hs hf ht⟩

/-! ### What the calls give back -/

theorem serve_cycle (h : step s = .next t) : serve .cycle s = .next (t, t.cycleReply) := by
  simp only [serve, h]

section
variable (s) {bytes : List Byte}

theorem serve_loadImage_fits (h : bytes.length ≤ 3584) :
    serve (.loadImage bytes) s = .next (s.storeImage loadBase bytes, .ok) := by
  have hload : s.loadImage bytes = .ok (s.storeImage loadBase bytes) := if_pos h
  simp only [serve, hload]

theorem serve_loadImage_oversize (h : 3584 < bytes.length) :
    serve (.loadImage bytes) s = .next (s, .loadError .oversize) := by
  have hload : s.loadImage bytes = .error .oversize := if_neg (Nat.not_le.2 h)
  simp only [serve, hload]

end

/-- Settles O53: an image that fits is stored by `storeImage`, whose spec gives each clause. -/
theorem loadImageStoresOrRefuses : Obligations.LoadImageStoresOrRefuses := by
  intro s bytes
  obtain ⟨hread, hkept, hframe, -⟩ := s.storeImage_spec loadBase bytes
  exact ⟨fun h => ⟨_, serve_loadImage_fits s h, hread, hkept, hframe⟩, serve_loadImage_oversize s⟩

/-! ### The invariant through each call -/

/-- Memory in its canonical form, the keypad and the timers are all a call other than Reset and Cycle writes, and the
invariant asks nothing else of them. -/
theorem State.Inv.of_host_write {m : Memory} (h : s.Inv) (hm : Memory.wf s.dflt m) (k : Vector Bool numKeys)
    (d e : Byte) : { s with mem := m, keys := k, dt := d, st := e }.Inv where
  memory := hm
  pcBound := h.pcBound
  stackBound := h.stackBound
  noLatch := h.noLatch
  faultPc := h.faultPc

theorem State.Inv.storeImage {a : Nat} {bs : List Byte} (h : s.Inv) (ha : a + bs.length ≤ memSize) :
    (s.storeImage a bs).Inv := by
  obtain ⟨-, -, hframe, hwf⟩ := s.storeImage_spec a bs
  have hdflt : (s.storeImage a bs).dflt = s.dflt := by rw [hframe]; rfl
  have hm := hwf ha h.memory
  rw [hdflt] at hm
  rw [hframe]
  exact h.of_host_write hm s.keys s.dt s.st

theorem State.Inv.hostTimerTick (h : s.Inv) : s.hostTimerTick.Inv := by
  unfold State.hostTimerTick
  cases s.cfg.timerMode with
  | perCycle => exact h
  | external =>
    cases s.halted with
    | true => exact h
    | false => exact h.of_host_write h.memory s.keys (countDown s.dt) (countDown s.st)

/-- Settles O52, call by call: a cycle by `step_answers` and O51, a load by whether its image fits; the read ports
leave the state as it is. -/
theorem hostCallsKeepTheInvariant : Obligations.HostCallsKeepTheInvariant := by
  intro c s h
  cases c with
  | reset font => exact ⟨_, _, rfl, State.construct_inv _ _ _⟩
  | loadImage bytes =>
    by_cases hlen : bytes.length ≤ 3584
    case pos =>
      have hfits : loadBase + bytes.length ≤ memSize := Nat.add_le_add_left hlen loadBase
      exact ⟨_, _, serve_loadImage_fits s hlen, h.storeImage hfits⟩
    case neg => exact ⟨_, _, serve_loadImage_oversize s (Nat.not_le.1 hlen), h⟩
  | setKeys k => exact ⟨_, _, rfl, h.of_host_write h.memory k s.dt s.st⟩
  | cycle =>
    obtain ⟨t, ht⟩ := step_answers s
    exact ⟨_, _, serve_cycle ht, stepKeepsTheInvariant s t h ht⟩
  | timerTick => exact ⟨_, _, rfl, h.hostTimerTick⟩
  | readFramebuffer | readTimers | readFault => exact ⟨_, _, rfl, h⟩

end Sys2Proof.Machine
end

section
/-! PROOFS. Decoding and encoding (30_encoding.md R63 to R77, R81): a word as its fields, what an encoding decodes to,
and what every decoded word keeps of its bits. -/

namespace Sys2Proof

variable {w : Word} {i : Instr}

/-! ### A word is made of its fields -/

theorem packAddr_fields (w : Word) : packAddr (family w) (fieldNNN w) = w :=
  (BitVec.extractLsb'_append_extractLsb'_eq_extractLsb' rfl).trans BitVec.extractLsb'_eq_self

theorem family_append_fieldX (w : Word) : family w ++ fieldX w = w.extractLsb' 8 8 :=
  BitVec.extractLsb'_append_extractLsb'_eq_extractLsb' rfl

theorem packRegByte_fields (w : Word) : packRegByte (family w) (fieldX w) (fieldKK w) = w := by
  rw [packRegByte, family_append_fieldX]
  exact (BitVec.extractLsb'_append_extractLsb'_eq_extractLsb' rfl).trans BitVec.extractLsb'_eq_self

theorem packRegs_fields (w : Word) : packRegs (family w) (fieldX w) (fieldY w) (fieldN w) = w := by
  have hy : w.extractLsb' 8 8 ++ fieldY w = w.extractLsb' 4 12 :=
    BitVec.extractLsb'_append_extractLsb'_eq_extractLsb' rfl
  rw [packRegs, family_append_fieldX, hy]
  exact (BitVec.extractLsb'_append_extractLsb'_eq_extractLsb' rfl).trans BitVec.extractLsb'_eq_self

section
variable {f : BitVec 4} (hf : family w = f)
include hf

theorem packAddr_eq_of_key : packAddr f (fieldNNN w) = w := by
  rw [← hf, packAddr_fields]

theorem packRegByte_eq_of_key {b : Byte} (hb : fieldKK w = b) : packRegByte f (fieldX w) b = w := by
  rw [← hf, ← hb, packRegByte_fields]

theorem packRegs_eq_of_key {n : BitVec 4} (hn : fieldN w = n) : packRegs f (fieldX w) (fieldY w) n = w := by
  rw [← hf, ← hn, packRegs_fields]

end

/-! ### The bits a mask keeps -/

theorem and_packRegs (w : Word) (f x y n : BitVec 4) :
    w &&& packRegs f x y n = packRegs (family w &&& f) (fieldX w &&& x) (fieldY w &&& y) (fieldN w &&& n) := by
  conv_lhs => rw [← packRegs_fields w]
  unfold packRegs
  erw [BitVec.and_append, BitVec.and_append, BitVec.and_append]

theorem and_packRegByte (w : Word) (f x : BitVec 4) (b : Byte) :
    w &&& packRegByte f x b = packRegByte (family w &&& f) (fieldX w &&& x) (fieldKK w &&& b) := by
  conv_lhs => rw [← packRegByte_fields w]
  unfold packRegByte
  erw [BitVec.and_append, BitVec.and_append]

theorem nibble_and_ones (n : BitVec 4) : n &&& 0xF#4 = n := BitVec.and_allOnes

theorem byte_and_ones (b : Byte) : b &&& 0xFF#8 = b := BitVec.and_allOnes

theorem and_F000 (w : Word) : w &&& 0xF000#16 = packRegs (family w) 0#4 0#4 0#4 :=
  (and_packRegs w 0xF#4 0#4 0#4 0#4).trans (by simp only [nibble_and_ones, BitVec.and_zero])

theorem and_F00F (w : Word) : w &&& 0xF00F#16 = packRegs (family w) 0#4 0#4 (fieldN w) :=
  (and_packRegs w 0xF#4 0#4 0#4 0xF#4).trans (by simp only [nibble_and_ones, BitVec.and_zero])

theorem and_FF0F (w : Word) : w &&& 0xFF0F#16 = packRegs (family w) (fieldX w) 0#4 (fieldN w) :=
  (and_packRegs w 0xF#4 0xF#4 0#4 0xF#4).trans (by simp only [nibble_and_ones, BitVec.and_zero])

theorem and_FFF0 (w : Word) : w &&& 0xFFF0#16 = packRegs (family w) (fieldX w) (fieldY w) 0#4 :=
  (and_packRegs w 0xF#4 0xF#4 0xF#4 0#4).trans (by simp only [nibble_and_ones, BitVec.and_zero])

theorem and_F0FF (w : Word) : w &&& 0xF0FF#16 = packRegByte (family w) 0#4 (fieldKK w) :=
  (and_packRegByte w 0xF#4 0#4 0xFF#8).trans (by simp only [nibble_and_ones, byte_and_ones, BitVec.and_zero])

section
variable {m v : Word} (h : w &&& m = v)
include h

theorem family_of_masked (hm : family m = 0xF#4) : family w = family v := by
  rw [← h, ← nibble_and_ones (family w), ← hm]
  exact BitVec.extractLsb'_and.symm

theorem fieldN_of_masked (hm : fieldN m = 0xF#4) : fieldN w = fieldN v := by
  rw [← h, ← nibble_and_ones (fieldN w), ← hm]
  exact BitVec.extractLsb'_and.symm

theorem fieldKK_of_masked (hm : fieldKK m = 0xFF#8) : fieldKK w = fieldKK v := by
  rw [← h, ← byte_and_ones (fieldKK w), ← hm]
  exact BitVec.extractLsb'_and.symm

end

/-! ### The four families with a sub-table, and their unassigned words -/

theorem decodeWord_family0 (h : family w = 0x0#4) : decodeWord w = decodeFamily0 w := by
  simp [decodeWord, h]

theorem decodeWord_family8 (h : family w = 0x8#4) : decodeWord w = decodeFamily8 w := by
  simp [decodeWord, h]

theorem decodeWord_familyE (h : family w = 0xE#4) : decodeWord w = decodeFamilyE w := by
  simp [decodeWord, h]

theorem decodeWord_familyF (h : family w = 0xF#4) : decodeWord w = decodeFamilyF w := by
  simp [decodeWord, h]

theorem wf_nop0 : (Instr.nop0 w).wf = true ↔ family w = 0x0#4 ∧ fieldN w ∉ assigned0 := by
  simp [Instr.wf, unassignedNibble, family, fieldN]

theorem wf_nop8 : (Instr.nop8 w).wf = true ↔ family w = 0x8#4 ∧ fieldN w ∉ assigned8 := by
  simp [Instr.wf, unassignedNibble, family, fieldN]

theorem wf_nopE : (Instr.nopE w).wf = true ↔ family w = 0xE#4 ∧ fieldN w ∉ assignedE := by
  simp [Instr.wf, unassignedNibble, family, fieldN]

theorem wf_nopF : (Instr.nopF w).wf = true ↔ family w = 0xF#4 ∧ fieldKK w ∉ assignedF := by
  simp [Instr.wf, unassignedByteF, family, fieldKK]

theorem decodeFamily0_unassigned (h : fieldN w ∉ assigned0) : decodeFamily0 w = .nop0 w := by
  fun_cases decodeFamily0 w
  case case3 => rfl
  all_goals
    next hn => exact absurd (by rw [hn]; decide) h

theorem decodeFamily8_unassigned (h : fieldN w ∉ assigned8) : decodeFamily8 w = .nop8 w := by
  fun_cases decodeFamily8 w
  case case10 => rfl
  all_goals
    next hn => exact absurd (by rw [hn]; decide) h

theorem decodeFamilyE_unassigned (h : fieldN w ∉ assignedE) : decodeFamilyE w = .nopE w := by
  fun_cases decodeFamilyE w
  case case3 => rfl
  all_goals
    next hn => exact absurd (by rw [hn]; decide) h

theorem decodeFamilyF_unassigned (h : fieldKK w ∉ assignedF) : decodeFamilyF w = .nopF w := by
  fun_cases decodeFamilyF w
  case case10 => rfl
  all_goals
    next hk => exact absurd (by rw [hk]; decide) h

/-! ### Encode, then decode -/

/-- The fields of a packed word are the operands it was packed from; a NOP row's word takes the default branch of its
family. -/
theorem decodeWord_encode (h : i.wf = true) : decodeWord (encode i) = i := by
  cases i
  case nop0 =>
    obtain ⟨hf, hn⟩ := wf_nop0.1 h
    rw [encode, decodeWord_family0 hf, decodeFamily0_unassigned hn]
  case nop8 =>
    obtain ⟨hf, hn⟩ := wf_nop8.1 h
    rw [encode, decodeWord_family8 hf, decodeFamily8_unassigned hn]
  case nopE =>
    obtain ⟨hf, hn⟩ := wf_nopE.1 h
    rw [encode, decodeWord_familyE hf, decodeFamilyE_unassigned hn]
  case nopF =>
    obtain ⟨hf, hk⟩ := wf_nopF.1 h
    rw [encode, decodeWord_familyF hf, decodeFamilyF_unassigned hk]
  case cls | ret => rfl
  all_goals simp [encode, decodeWord, decodeFamily8, decodeFamilyE, decodeFamilyF]

/-- Settles O1: the two stored bytes are the canonical word again, which decodes to its instruction. -/
theorem decodeEncodeAgree : Obligations.DecodeEncodeAgree := by
  intro i rest h
  refine ⟨decodeWord_encode h, ?_⟩
  calc decode (encodeBytes i ++ rest)
      = .ok (decodeWord (wordOfBytes (highByte (encode i)) (lowByte (encode i))), rest) := decode_cons ..
    _ = .ok (i, rest) := by rw [wordOfBytes_high_low, decodeWord_encode h]

/-! ### Decode, then encode -/

/-- What a decoding of `w` owes it (R68, R69, R76): an operation of the table, with every used bit of `w` in it. -/
structure DecodedFrom (w : Word) (i : Instr) : Prop where
  wf : i.wf = true
  restores : encode i &&& i.usedBits = w &&& i.usedBits

theorem DecodedFrom.of_encode (hwf : i.wf = true) (h : encode i = w) : DecodedFrom w i := ⟨hwf, by rw [h]⟩

theorem decodedFrom_family0 (hf : family w = 0x0#4) : DecodedFrom w (decodeFamily0 w) := by
  fun_cases decodeFamily0 w
  case case3 => exact .of_encode (wf_nop0.2 ⟨hf, by simp_all [assigned0]⟩) rfl
  all_goals
    next hn =>
      refine ⟨rfl, ?_⟩
      simp only [Instr.usedBits, and_F00F, hf, hn]
      rfl

theorem decodedFrom_family8 (hf : family w = 0x8#4) : DecodedFrom w (decodeFamily8 w) := by
  fun_cases decodeFamily8 w
  case case10 => exact .of_encode (wf_nop8.2 ⟨hf, by simp_all [assigned8]⟩) rfl
  all_goals
    next hn => exact .of_encode rfl (packRegs_eq_of_key hf hn)

theorem decodedFrom_familyE (hf : family w = 0xE#4) : DecodedFrom w (decodeFamilyE w) := by
  fun_cases decodeFamilyE w
  case case3 => exact .of_encode (wf_nopE.2 ⟨hf, by simp_all [assignedE]⟩) rfl
  all_goals
    next hn =>
      refine ⟨rfl, ?_⟩
      simp [Instr.usedBits, encode, and_FF0F, hf, hn]

theorem decodedFrom_familyF (hf : family w = 0xF#4) : DecodedFrom w (decodeFamilyF w) := by
  fun_cases decodeFamilyF w
  case case10 => exact .of_encode (wf_nopF.2 ⟨hf, by simp_all [assignedF]⟩) rfl
  all_goals
    next hk => exact .of_encode rfl (packRegByte_eq_of_key hf hk)

/-- The primary table: four families go to their sub-tables, and `SE Vx, Vy` and `SNE Vx, Vy` leave W[3:0] out; every
other row encodes back to the whole word. -/
theorem decodedFrom_decodeWord (w : Word) : DecodedFrom w (decodeWord w) := by
  fun_cases decodeWord w
  case case1 hf => exact decodedFrom_family0 hf
  case case9 hf => exact decodedFrom_family8 hf
  case case15 hf => exact decodedFrom_familyE hf
  case case16 =>
    have hf : family w = 0xF#4 := by
      simp only [imp_false] at *
      bv_omega
    exact decodedFrom_familyF hf
  case case6 hf | case10 hf =>
    refine ⟨rfl, ?_⟩
    simp [Instr.usedBits, encode, and_FFF0, hf]
  case case2 hf | case3 hf | case11 hf | case12 hf => exact .of_encode rfl (packAddr_eq_of_key hf)
  case case4 hf | case5 hf | case7 hf | case8 hf | case13 hf => exact .of_encode rfl (packRegByte_eq_of_key hf rfl)
  case case14 hf => exact .of_encode rfl (packRegs_eq_of_key hf rfl)

/-- Settles O3, by `decodedFrom_decodeWord`. -/
theorem encodeRestoresEveryUsedBit : Obligations.EncodeRestoresEveryUsedBit :=
  fun w => (decodedFrom_decodeWord w).restores

/-- Settles O6, by `decodedFrom_decodeWord`. -/
theorem decodedInstructionsAreWellFormed : Obligations.DecodedInstructionsAreWellFormed :=
  fun w => (decodedFrom_decodeWord w).wf

/-! ### The rows of the opcode table -/

/-- The bits a row compares take part in decoding. -/
theorem usedBits_and_row (i : Instr) : i.usedBits &&& i.row.1 = i.row.1 := by
  cases i <;> simp only [Instr.usedBits, Instr.row] <;> rfl

theorem encode_matches_row (h : i.wf = true) : encode i &&& i.row.1 = i.row.2 := by
  cases i
  case nop0 => rw [encode, Instr.row, and_F000, (wf_nop0.1 h).1]; rfl
  case nop8 => rw [encode, Instr.row, and_F000, (wf_nop8.1 h).1]; rfl
  case nopE => rw [encode, Instr.row, and_F000, (wf_nopE.1 h).1]; rfl
  case nopF => rw [encode, Instr.row, and_F000, (wf_nopF.1 h).1]; rfl
  case cls | ret => rfl
  all_goals
    simp only [encode, Instr.row, and_F000, and_F00F, and_F0FF, family_packAddr, family_packRegByte, family_packRegs,
      fieldN_packRegByte, fieldN_packRegs, fieldKK_packRegByte]
    rfl

/-- A decoded word matches its row because its encoding does, and the two agree on every bit the row compares. -/
theorem DecodedFrom.matches_row (h : DecodedFrom w i) : w &&& i.row.1 = i.row.2 := by
  calc w &&& i.row.1
      = w &&& i.usedBits &&& i.row.1 := by rw [BitVec.and_assoc, usedBits_and_row]
    _ = encode i &&& i.usedBits &&& i.row.1 := by rw [h.restores]
    _ = encode i &&& i.row.1 := by rw [BitVec.and_assoc, usedBits_and_row]
    _ = i.row.2 := encode_matches_row h.wf

/-- A match fixes the family and, in the four families with a sub-table, the sub-table's key. -/
theorem row_decodeWord_of_match (hi : i.isNop = false) (h : w &&& i.row.1 = i.row.2) :
    (decodeWord w).row = i.row := by
  cases i
  all_goals
    simp only [Instr.row] at h ⊢
    have hf := family_of_masked h rfl
  case nop0 | nop8 | nopE | nopF => cases hi
  case cls | ret =>
    rw [decodeWord_family0 hf, decodeFamily0, fieldN_of_masked h rfl]
    rfl
  case ldReg | orReg | andReg | xorReg | addReg | sub | shr | subn | shl =>
    rw [decodeWord_family8 hf, decodeFamily8, fieldN_of_masked h rfl]
    rfl
  case skp | sknp =>
    rw [decodeWord_familyE hf, decodeFamilyE, fieldN_of_masked h rfl]
    rfl
  case ldVxDT | ldVxK | ldDT | ldST | addI | ldF | ldB | ldAtI | ldVxAtI =>
    rw [decodeWord_familyF hf, decodeFamilyF, fieldKK_of_masked h rfl]
    rfl
  all_goals
    rw [decodeWord, hf]
    rfl

/-- Settles O2, one direction by each of the two lemmas above. -/
theorem decodeFollowsTheOpcodeTable : Obligations.DecodeFollowsTheOpcodeTable :=
  ⟨fun w => (decodedFrom_decodeWord w).matches_row, fun _ _ => row_decodeWord_of_match⟩

/-! ### Bits outside the keys (R77), and words written out -/

theorem family_byteThenNibble (f n : BitVec 4) (b : Byte) : family (f ++ b ++ n) = f :=
  (BitVec.extractLsb'_append_eq_of_le (by decide)).trans BitVec.extractLsb'_append_eq_left

theorem fieldN_byteThenNibble (f n : BitVec 4) (b : Byte) : fieldN (f ++ b ++ n) = n :=
  BitVec.extractLsb'_append_eq_right

theorem decodeWord_cls (hf : family w = 0x0#4) (hn : fieldN w = 0x0#4) : decodeWord w = .cls := by
  simp only [decodeWord_family0 hf, decodeFamily0, hn]

theorem decodeWord_ret (hf : family w = 0x0#4) (hn : fieldN w = 0xE#4) : decodeWord w = .ret := by
  simp only [decodeWord_family0 hf, decodeFamily0, hn]

/-- Settles O4: the keys decide the operation, and SHR and SHL ignore the `y` they decode. -/
theorem decodeIgnoresUnkeyedBits : Obligations.DecodeIgnoresUnkeyedBits := by
  refine ⟨fun nn => ?cls, fun nn => ?ret, fun x y n => ?seReg, fun x y n => ?sneReg, fun x n => ?skp,
    fun x n => ?sknp, fun x y z s => ?shr, fun x y z s => ?shl, fun f rest hf => ?assigned⟩
  case cls => exact decodeWord_cls (family_byteThenNibble ..) (fieldN_byteThenNibble ..)
  case ret => exact decodeWord_ret (family_byteThenNibble ..) (fieldN_byteThenNibble ..)
  case seReg | sneReg => simp [regsWord_eq, decodeWord]
  case skp | sknp => simp [regsWord_eq, decodeWord, decodeFamilyE]
  case shr =>
    have hdec (y : Reg) : decodeWord (0x8#4 ++ x ++ y ++ 0x6#4) = .shr x y := decodeWord_encode (i := .shr x y) rfl
    rw [hdec y, hdec z]
    rfl
  case shl =>
    have hdec (y : Reg) : decodeWord (0x8#4 ++ x ++ y ++ 0xE#4) = .shl x y := decodeWord_encode (i := .shl x y) rfl
    rw [hdec y, hdec z]
    rfl
  case assigned => fin_cases hf <;> simp [addrWord_eq, decodeWord, Instr.isNop]

/-- Settles O5, by evaluating the decoder. -/
theorem decodeOfSampleWords : Obligations.DecodeOfSampleWords := by
  unfold Obligations.DecodeOfSampleWords
  decide

end Sys2Proof
end

section
/-! PROOFS. The cycle (30_encoding.md R70, R71; 60_exceptions.md R142, R146): it always answers, and what it does at
each PC. -/

namespace Sys2Proof.Machine

variable {s : State}

/-- Settles O11, by the two lemmas the host's calls rest on. -/
theorem everyCycleAnswersANextState : Obligations.EveryCycleAnswersANextState := ⟨exec_answers, step_answers⟩

theorem State.fetch_of_ge (h : memSize ≤ s.pc.toNat) : s.fetch = .error (.bounds s.pc.toNat) := by
  simp only [State.fetch, s.readByte_of_ge h]

theorem State.fetch_at_last (h : s.pc.toNat + 1 = memSize) : s.fetch = .error (.bounds memSize) := by
  have hpc : s.pc.toNat < memSize := Nat.lt_of_succ_le h.le
  simp only [State.fetch, s.readByte_of_lt hpc, h, s.readByte_of_ge (Nat.le_refl memSize)]

theorem State.cycleReply_of_running (h : s.fault = none) : s.cycleReply = .ok := by
  simp only [State.cycleReply, h]

theorem State.cycleReply_of_fault {r : FaultRecord} (h : s.fault = some r) : s.cycleReply = .faulted r := by
  simp only [State.cycleReply, h]

/-- Settles O7: each clause is one of the three things a cycle does (`step_halted`, `step_fetch_fault`, `step_runs`);
the reply is read off the state it leaves. -/
theorem cycleFetchesDecodesAndExecutes : Obligations.CycleFetchesDecodesAndExecutes := by
  intro s
  refine ⟨step_halted, fun hs hpc => step_fetch_fault hs (State.fetch_of_ge hpc),
    fun hs hpc => step_fetch_fault hs (State.fetch_at_last (congrArg (· + 1) hpc)), ?runs, fun t _ h => ?replies⟩
  case runs =>
    rintro _ _ i hs hpc rfl rfl hi
    cases hi
    refine ⟨_, toNat_wordOfBytes _ _, rfl, fun t ht => ?_⟩
    have hstep := step_runs hs (s.fetch_of_lt hpc) ht
    exact ⟨fun hf hm => by rw [hstep, State.endCycle_tick hf hm],
      fun hstill => by rw [hstep, State.endCycle_still hstill]⟩
  case replies =>
    rw [serve_cycle h]
    exact ⟨fun hf => by rw [State.cycleReply_of_running hf], fun r hf => by rw [State.cycleReply_of_fault hf]⟩

end Sys2Proof.Machine
end

section
/-! PROOFS. Control flow (40_control.md R85 to R94; 60_exceptions.md R142, R164, R165): what each instruction makes of PC
and the stack, and the cycles of the halt idiom. -/

namespace Sys2Proof.Machine

variable {s : State}

/-! ### Cycles in which only the end of the cycle acts -/

/-- `t` is what `n` cycles leave of `s` where each lets the timers count and does nothing else (R70, R151, R152). -/
structure IdledFor (n : Nat) (s t : State) : Prop where
  frame : t = { s with w := t.w, dt := t.dt, st := t.st }
  counted : s.cfg.timerMode = .perCycle → t.dt.toNat = s.dt.toNat - n ∧ t.st.toNat = s.st.toNat - n
  still : s.cfg.timerMode = .external → t.dt = s.dt ∧ t.st = s.st

theorem IdledFor.refl (s : State) : IdledFor 0 s s := ⟨rfl, fun _ => ⟨rfl, rfl⟩, fun _ => ⟨rfl, rfl⟩⟩

/-- The end of a cycle before `n` idle ones makes one more of them. -/
theorem IdledFor.of_endCycle {n : Nat} {t : State} (hs : s.fault = none) (h : IdledFor n s.endCycle t) :
    IdledFor (n + 1) s t where
  frame := by
    have hframe := h.frame
    rwa [State.endCycle_frame] at hframe
  counted hm := by
    have hcounted := h.counted (s.endCycle_cfg ▸ hm)
    simp only [State.endCycle_tick hs hm, toNat_countDown] at hcounted
    omega
  still hm := by
    have hstill := h.still (s.endCycle_cfg ▸ hm)
    rwa [State.endCycle_still (.inr hm)] at hstill

/-- Where every cycle begun in `P` only ends, any number of them idles and stays in `P`. -/
theorem run_idle {P : State → Prop} (hstep : ∀ u, P u → step u = .next u.endCycle) (hkeep : ∀ u, P u → P u.endCycle)
    (hrun : ∀ u, P u → u.fault = none) (n : Nat) (h : P s) :
    ∃ t, Sys2Proof.core.run n s = .next t ∧ P t ∧ IdledFor n s t := by
  induction n generalizing s with
  | zero => exact ⟨s, rfl, h, .refl s⟩
  | succ n ih =>
    obtain ⟨t, ht, hPt, hidle⟩ := ih (hkeep s h)
    have hcore : Sys2Proof.core.step s = .next s.endCycle := hstep s h
    refine ⟨t, ?_, hPt, hidle.of_endCycle (hrun s h)⟩
    simp only [Host.Core.run, hcore]
    exact ht

/-! ### The halt idiom -/

theorem toNat_zext16 (nnn : Addr12) : (zext16 nnn).toNat = nnn.toNat := by
  have := nnn.isLt
  simp only [zext16, BitVec.toNat_ofNat]
  omega

/-- The next cycle runs `w`, a `JP P` at address `P` (R165). -/
structure AtJumpToSelf (nnn : Addr12) (w : Word) (s : State) : Prop where
  running : s.fault = none
  noLatch : s.w = none
  fetches : s.fetch = .ok w
  decodes : decodeWord w = .jp nnn
  toSelf : nnn.toNat = s.pc.toNat

section
variable {nnn : Addr12} {w : Word}

/-- The jump puts PC back where the fetch found it, and the cycle's end drops the latched word. -/
theorem AtJumpToSelf.step_eq (h : AtJumpToSelf nnn w s) : step s = .next s.endCycle := by
  have hpc : zext16 nnn = s.pc := BitVec.eq_of_toNat_eq ((toNat_zext16 nnn).trans h.toSelf)
  have hexec : exec (decodeWord w) (s.latch w) = .next ((s.latch w).jumpTo s.pc) := by
    rw [h.decodes, ← hpc]
    rfl
  calc step s
      = .next ((s.latch w).jumpTo s.pc).endCycle := step_runs h.running h.fetches hexec
    _ = .next s.endCycle := rfl

theorem AtJumpToSelf.endCycle (h : AtJumpToSelf nnn w s) : AtJumpToSelf nnn w s.endCycle where
  running := s.endCycle_fault.trans h.running
  noLatch := s.endCycle_w
  fetches := by
    have hbyte (a : Nat) : s.endCycle.byteAt a = s.byteAt a := by rw [State.endCycle_frame]; rfl
    rw [State.fetch_congr s.endCycle_pc hbyte, h.fetches]
  decodes := h.decodes
  toSelf := h.toSelf.trans (congrArg BitVec.toNat s.endCycle_pc.symm)

end

/-- Settles O56: each cycle of the halt idiom only ends and begins it again, so any number of them idles; no word is
latched before or after. -/
theorem jumpToSelfChangesOnlyTimers : Obligations.JumpToSelfChangesOnlyTimers := by
  intro n nnn s w hs hw hf hd hself
  obtain ⟨t, hrun, ht, hidle⟩ := run_idle (P := AtJumpToSelf nnn w) (fun _ => AtJumpToSelf.step_eq)
    (fun _ => AtJumpToSelf.endCycle) (fun _ => AtJumpToSelf.running) n ⟨hs, hw, hf, hd, hself⟩
  have hframe : t = { s with dt := t.dt, st := t.st } := by
    have hframe := hidle.frame
    rwa [ht.noLatch, ← hw] at hframe
  refine ⟨t, hrun, hframe, hidle.counted, fun hm => ?external⟩
  case external =>
    obtain ⟨hdt, hst⟩ := hidle.still hm
    rw [hframe, hdt, hst]

/-! ### RET and CALL -/

theorem exec_ret_nonempty (h : 0 < s.sp.val) :
    exec .ret s = .next { s with
      pc := s.stack[s.sp.val - 1]'(by have := s.sp.isLt; omega), sp := ⟨s.sp.val - 1, by omega⟩ } := by
  simp only [exec, execRet, s.pop_ok h]
  rfl

theorem exec_ret_empty (h : s.sp.val = 0) : exec .ret s = .next (s.takeFault .stackUnderflow) := by
  simp only [exec, execRet, s.pop_empty h, settle_error]

theorem exec_call_room (nnn : Addr12) (h : s.sp.val < stackDepth) :
    exec (.call nnn) s = .next { s with
      pc := zext16 nnn, sp := ⟨s.sp.val + 1, by omega⟩, stack := s.stack.set s.sp.val s.pc h } := by
  simp only [exec, execCall, s.push_ok s.pc h]
  rfl

theorem exec_call_full (nnn : Addr12) (h : s.sp.val = stackDepth) :
    exec (.call nnn) s = .next (s.takeFault .stackOverflow) := by
  simp only [exec, execCall, s.push_full s.pc h, settle_error]

/-- Settles O19, by whether the stack is empty. -/
theorem retPopsTheReturnAddress : Obligations.RetPopsTheReturnAddress := by
  obtain ⟨-, hret, -⟩ := decodeIgnoresUnkeyedBits
  refine ⟨hret, fun s => ⟨fun h => ?nonempty, exec_ret_empty⟩⟩
  case nonempty =>
    refine ⟨_, exec_ret_nonempty h, rfl, fun k hk => ?_, rfl⟩
    simp only [hk]

/-- Settles O22, by whether the stack is full. -/
theorem callPushesTheReturnAddress : Obligations.CallPushesTheReturnAddress := by
  intro nnn s
  refine ⟨decodeWord_encode (i := .call nnn) rfl, fun h => ?room, exec_call_full nnn⟩
  case room =>
    refine ⟨_, exec_call_room nnn h, rfl, toNat_zext16 nnn, fun k => ?_, rfl⟩
    simp only [Vector.getElem_set, eq_comm (a := s.sp.val)]

/-! ### Jumps -/

theorem State.toNat_offsetTarget (s : State) (nnn : Addr12) :
    (s.offsetTarget nnn).toNat = nnn.toNat + (s.reg v0).toNat := by
  have := nnn.isLt
  have := (s.reg v0).isLt
  simp only [State.offsetTarget, BitVec.toNat_ofNat]
  omega

/-- Settles O20: the target is `nnn` zero-extended. -/
theorem jpSetsThePc : Obligations.JpSetsThePc :=
  fun nnn _ => ⟨decodeWord_encode (i := .jp nnn) rfl, zext16 nnn, toNat_zext16 nnn, rfl⟩

/-- Settles O21: the sum of a 12-bit address and a byte fits PC. -/
theorem jpV0AddsV0 : Obligations.JpV0AddsV0 :=
  fun nnn s => ⟨decodeWord_encode (i := .jpV0 nnn) rfl, s.offsetTarget nnn, s.toNat_offsetTarget nnn, rfl⟩

/-! ### Skips -/

theorem State.skipIf_beq (s : State) (a b : Byte) :
    s.skipIf (a == b) = if a = b then { s with pc := s.pc + 2#16 } else s := by
  simp only [State.skipIf_eq, beq_iff_eq]

theorem State.skipIf_bne (s : State) (a b : Byte) :
    s.skipIf (a != b) = if a = b then s else { s with pc := s.pc + 2#16 } := by
  simp only [State.skipIf_eq, bne_iff_ne, ne_eq, ite_not]

/-- Settles O23: both are `skipIf`, on the comparison and on its negation. -/
theorem skipsOnImmediates : Obligations.SkipsOnImmediates :=
  fun x kk s => ⟨decodeWord_encode (i := .seImm x kk) rfl, decodeWord_encode (i := .sneImm x kk) rfl,
    congrArg Host.Outcome.next (s.skipIf_beq _ _), congrArg Host.Outcome.next (s.skipIf_bne _ _)⟩

/-- Settles O24, as O23; that W[3:0] plays no part is O4. -/
theorem skipsOnRegisters : Obligations.SkipsOnRegisters := by
  obtain ⟨-, -, hse, hsne, -⟩ := decodeIgnoresUnkeyedBits
  exact fun x y n s => ⟨hse x y n, hsne x y n,
    congrArg Host.Outcome.next (s.skipIf_beq _ _), congrArg Host.Outcome.next (s.skipIf_bne _ _)⟩

/-! ### Unassigned words -/

theorem execUnassigned_nop (w : Word) (h : s.cfg.unassignedPolicy = .nop) : execUnassigned w s = .next s := by
  simp only [execUnassigned, h, settle_ok]

theorem execUnassigned_fault (w : Word) (h : s.cfg.unassignedPolicy = .fault) :
    execUnassigned w s = .next (s.takeFault (.unassigned w)) := by
  simp only [execUnassigned, h, settle_error]

/-- A NOP row carries its own word, and all four have one meaning (R76, R94). -/
theorem nopRow_of_mem {w : Word} {i : Instr} (h : i ∈ [Instr.nop0 w, .nop8 w, .nopE w, .nopF w]) :
    encode i = w ∧ exec i = execUnassigned w := by
  fin_cases h <;> exact ⟨rfl, rfl⟩

/-- Settles O25, by the policy; a well-formed NOP row is what its word decodes to by O1. -/
theorem unassignedWordsDoNothingOrFault : Obligations.UnassignedWordsDoNothingOrFault := by
  intro w i hi s
  obtain ⟨hencode, hexec⟩ := nopRow_of_mem hi
  rw [hexec]
  refine ⟨fun hwf => ?decodes, execUnassigned_nop w, execUnassigned_fault w⟩
  case decodes => rw [← hencode, decodeWord_encode hwf]

end Sys2Proof.Machine
end

section
/-! PROOFS. The ALU (41_alu.md R96 to R109; 60_exceptions.md R156): results, flags, and the free values of
`VF_ALIAS = ANY`. -/

namespace Sys2Proof.Machine

variable {x y : Reg} {s : State}

/-! ### Instructions without a flag -/

/-- Settles O26: each is one `setReg`. -/
theorem loadsAndAddImmediate : Obligations.LoadsAndAddImmediate := by
  intro x y kk s
  refine ⟨decodeWord_encode (i := .ldImm x kk) rfl, decodeWord_encode (i := .addImm x kk) rfl,
    decodeWord_encode (i := .ldReg x y) rfl, s.setReg x kk, s.setReg x (sum8 (s.reg x) kk), s.setReg x (s.reg y),
    rfl, rfl, rfl, s.reg_setReg_self x _, ?sum, s.reg_setReg_self x _, fun r hr => ?others, rfl, rfl, rfl⟩
  case sum => rw [State.reg_setReg_self, toNat_sum8]
  case others => exact ⟨s.reg_setReg_ne _ hr, s.reg_setReg_ne _ hr, s.reg_setReg_ne _ hr⟩

/-- Settles O27: each is one `setReg` of the operator on the whole bytes, read bit by bit. -/
theorem bitwiseOperations : Obligations.BitwiseOperations := by
  intro x y s
  refine ⟨decodeWord_encode (i := .orReg x y) rfl, decodeWord_encode (i := .andReg x y) rfl,
    decodeWord_encode (i := .xorReg x y) rfl, s.setReg x (s.reg x ||| s.reg y), s.setReg x (s.reg x &&& s.reg y),
    s.setReg x (s.reg x ^^^ s.reg y), rfl, rfl, rfl, fun k => ?bits, fun r hr => ?others, rfl, rfl, rfl⟩
  case bits =>
    simp only [State.reg_setReg_self]
    exact ⟨BitVec.getElem_or k.isLt, BitVec.getElem_and k.isLt, BitVec.getElem_xor k.isLt⟩
  case others => exact ⟨s.reg_setReg_ne _ hr, s.reg_setReg_ne _ hr, s.reg_setReg_ne _ hr⟩

/-- Settles O32: the draw changes the draw counter alone, and one `setReg` follows it. -/
theorem rndMasksAFreshDraw : Obligations.RndMasksAFreshDraw := by
  intro x kk s
  exact ⟨decodeWord_encode (i := .rnd x kk) rfl, s.draw.2.setReg x (s.draw.1 &&& kk), rfl,
    s.draw.2.reg_setReg_self x _, fun r hr => s.draw.2.reg_setReg_ne _ hr, rfl⟩

/-! ### Flags as numbers -/

theorem toNat_flagByte_carry (a b : Byte) :
    (flagByte (carry a b)).toNat = if 255 < a.toNat + b.toNat then 1 else 0 := by
  simp only [toNat_flagByte, carry, decide_eq_true_eq]

theorem toNat_flagByte_notBorrow (a b : Byte) :
    (flagByte (notBorrow a b)).toNat = if b.toNat < a.toNat then 1 else 0 := by
  simp only [toNat_flagByte, notBorrow, decide_eq_true_eq]

theorem toNat_flagByte_outRight (a : Byte) : (flagByte (outRight a)).toNat = a.toNat % 2 := by
  simp only [toNat_flagByte, outRight, decide_eq_true_eq]
  split <;> omega

theorem toNat_flagByte_outLeft (a : Byte) : (flagByte (outLeft a)).toNat = a.toNat / 128 := by
  have := a.isLt
  simp only [toNat_flagByte, outLeft, decide_eq_true_eq]
  split <;> omega

/-! ### Instructions with a flag, where VF_ALIAS leaves nothing free -/

/-- Where VF_ALIAS leaves nothing free, `writeFlagged` does what `setFlagThenReg_spec` says. -/
theorem State.writeFlagged_exact_spec {al : Bool} (f : Bool) (b : Byte)
    (h : s.cfg.vfAlias = .operandsFirst ∨ al = false) :
    (s.writeFlagged x al f b).reg x = b ∧ (x ≠ 15#4 → (s.writeFlagged x al f b).reg 15#4 = flagByte f) ∧
    (∀ r, r ≠ x → r ≠ 15#4 → (s.writeFlagged x al f b).reg r = s.reg r) ∧
    s.writeFlagged x al f b = { s with v := (s.writeFlagged x al f b).v } := by
  rw [s.writeFlagged_exact f b h]
  exact s.setFlagThenReg_spec x f b

/-- The premise of R109 on the two operands, as `writeFlagged` takes it. -/
theorem operandsFirst_or_unaliased (h : s.cfg.vfAlias = .operandsFirst ∨ (x ≠ 15#4 ∧ y ≠ 15#4)) :
    s.cfg.vfAlias = .operandsFirst ∨ (x == vF || y == vF) = false :=
  h.imp_right fun ⟨hx, hy⟩ => Bool.or_eq_false_iff.2 ⟨beq_eq_false_iff_ne.2 hx, beq_eq_false_iff_ne.2 hy⟩

/-- Settles O28, by what an exact `writeFlagged` leaves and the carry as a number. -/
theorem addWithCarry : Obligations.AddWithCarry := by
  intro x y s
  refine ⟨decodeWord_encode (i := .addReg x y) rfl, fun h => ?_⟩
  obtain ⟨hreg, hflag, hothers, hframe⟩ := State.writeFlagged_exact_spec (x := x) (carry (s.reg x) (s.reg y))
    (sum8 (s.reg x) (s.reg y)) (operandsFirst_or_unaliased h)
  refine ⟨_, rfl, ?sum, fun hx => ?carry, hothers, hframe⟩
  case sum => rw [hreg, toNat_sum8]
  case carry => rw [hflag hx, toNat_flagByte_carry]

/-- Settles O29, as O28 with the not-borrow; SUBN is SUB with the operands exchanged. -/
theorem subtractsWithNotBorrow : Obligations.SubtractsWithNotBorrow := by
  intro x y s
  refine ⟨decodeWord_encode (i := .sub x y) rfl, decodeWord_encode (i := .subn x y) rfl, fun h => ?_⟩
  have hspec (a b : Byte) :=
    State.writeFlagged_exact_spec (x := x) (notBorrow a b) (diff8 a b) (operandsFirst_or_unaliased h)
  obtain ⟨hsub, hsubFlag, hsubOthers, hsubFrame⟩ := hspec (s.reg x) (s.reg y)
  obtain ⟨hsubn, hsubnFlag, hsubnOthers, hsubnFrame⟩ := hspec (s.reg y) (s.reg x)
  refine ⟨_, _, rfl, rfl, ?sub, ?subn, fun hx => ?flags, fun r hr hF => ⟨hsubOthers r hr hF, hsubnOthers r hr hF⟩,
    hsubFrame, hsubnFrame⟩
  case sub => rw [hsub, toNat_diff8]
  case subn => rw [hsubn, toNat_diff8]
  case flags =>
    rw [hsubFlag hx, hsubnFlag hx]
    exact ⟨toNat_flagByte_notBorrow .., toNat_flagByte_notBorrow ..⟩

/-- Settles O30, as O28 with the bit shifted out; `x` is the only operand. -/
theorem shiftsByOne : Obligations.ShiftsByOne := by
  intro x y s
  refine ⟨decodeWord_encode (i := .shr x y) rfl, decodeWord_encode (i := .shl x y) rfl, fun h => ?_⟩
  have hal : s.cfg.vfAlias = .operandsFirst ∨ (x == vF) = false := h.imp_right beq_eq_false_iff_ne.2
  obtain ⟨hshr, hshrFlag, hshrOthers, hshrFrame⟩ :=
    State.writeFlagged_exact_spec (x := x) (outRight (s.reg x)) (half (s.reg x)) hal
  obtain ⟨hshl, hshlFlag, hshlOthers, hshlFrame⟩ :=
    State.writeFlagged_exact_spec (x := x) (outLeft (s.reg x)) (double (s.reg x)) hal
  refine ⟨_, _, rfl, rfl, ?shr, ?shl, fun hx => ?flags, fun r hr hF => ⟨hshrOthers r hr hF, hshlOthers r hr hF⟩,
    hshrFrame, hshlFrame⟩
  case shr => rw [hshr, toNat_half]
  case shl => rw [hshl, toNat_double]
  case flags =>
    rw [hshrFlag hx, hshlFlag hx]
    exact ⟨toNat_flagByte_outRight _, toNat_flagByte_outLeft _⟩

/-! ### Instructions with a flag that alias VF under ANY -/

/-- An ALU instruction that has VF as an operand or the destination, under ANY, writes draws only (R109). -/
theorem exec_aliased_any {i : Instr} (hany : s.cfg.vfAlias = .any)
    (h : (i ∈ [Instr.addReg x y, .sub x y, .subn x y] ∧ (x = 15#4 ∨ y = 15#4)) ∨
      (i ∈ [Instr.shr x y, .shl x y] ∧ x = 15#4)) :
    exec i s = .next (s.setFlagAndRegFree x) := by
  have hfree {al : Bool} (hal : al = true) (f : Bool) (b : Byte) :
      (.next (s.writeFlagged x al f b) : Result) = .next (s.setFlagAndRegFree x) := by
    rw [hal, s.writeFlagged_free f b hany]
  obtain ⟨hi, hxy⟩ | ⟨hi, hx⟩ := h
  · have hal : (x == vF || y == vF) = true := (Bool.or_eq_true _ _).mpr (hxy.imp beq_iff_eq.2 beq_iff_eq.2)
    fin_cases hi <;> exact hfree hal _ _
  · have hal : (x == vF) = true := beq_iff_eq.2 hx
    fin_cases hi <;> exact hfree hal _ _

/-- Settles O31: every such instruction leaves `setFlagAndRegFree`. -/
theorem vfAliasAnyLeavesFreeValues : Obligations.VfAliasAnyLeavesFreeValues :=
  fun x _ s _ hany h => ⟨_, exec_aliased_any hany h, s.setFlagAndRegFree_spec x⟩

end Sys2Proof.Machine
end

section
/-! PROOFS. The index register and the timers (42_index_timer.md R111 to R117): the moves, and the delay timer as a
counter of cycles. -/

namespace Sys2Proof.Machine

variable {s t u : State}

/-! ### The tick as numbers -/

/-- R151 on both timers, where the cycle completed without a fault under PER_CYCLE. -/
theorem State.toNat_endCycle_timers (hf : s.fault = none) (hm : s.cfg.timerMode = .perCycle) :
    s.endCycle.dt.toNat = s.dt.toNat - 1 ∧ s.endCycle.st.toNat = s.st.toNat - 1 := by
  rw [State.endCycle_tick hf hm]
  exact ⟨toNat_countDown s.dt, toNat_countDown s.st⟩

/-! ### Cycles that meet no fault -/

/-- A recorded fault halts the machine (R144), so a cycle that ends without one began without one. -/
theorem fault_none_of_step (h : step s = .next t) (ht : t.fault = none) : s.fault = none := by
  by_contra hs
  rw [step_halted hs] at h
  cases h
  exact hs ht

theorem run_succ_of_step (h : step s = .next u) (n : Nat) :
    Sys2Proof.core.run (n + 1) s = Sys2Proof.core.run n u := by
  have hcore : Sys2Proof.core.step s = .next u := h
  simp only [Host.Core.run, hcore]

theorem fault_none_of_run {n : Nat} (h : Sys2Proof.core.run n s = .next t) (ht : t.fault = none) : s.fault = none := by
  induction n generalizing s with
  | zero =>
    cases h
    exact ht
  | succ n ih =>
    obtain ⟨u, hu⟩ := step_answers s
    rw [run_succ_of_step hu] at h
    exact fault_none_of_step hu (ih h)

/-! ### The delay timer as a counter -/

theorem step_cfg (h : step s = .next t) : t.cfg = s.cfg := by
  obtain ⟨-, rfl⟩ | ⟨-, k, -, rfl⟩ | ⟨-, w, u, -, he, rfl⟩ := step_cases h
  · rfl
  · rfl
  · obtain ⟨-, -, -, hcfg, -⟩ := overlay_fixed (decodeWord w) (s.latch w) u
    rw [State.endCycle_cfg, exec_keeps State.cfg he hcfg fun _ => rfl, State.latch_cfg]

/-- A cycle that meets no fault and runs no LD DT takes one from DT: the operation keeps it, the tick lowers it. -/
theorem toNat_dt_of_step (hm : s.cfg.timerMode = .perCycle) (h : step s = .next t) (ht : t.fault = none)
    (hno : ∀ w x, s.fetch = .ok w → decodeWord w ≠ .ldDT x) : t.dt.toNat = s.dt.toNat - 1 := by
  have htm : t.cfg.timerMode = .perCycle := step_cfg h ▸ hm
  obtain ⟨hs, rfl⟩ | ⟨-, k, -, rfl⟩ | ⟨-, w, u, hf, he, rfl⟩ := step_cases h
  · exact absurd ht hs
  · cases ht
  · have hdt : u.dt = (s.latch w).dt := exec_keeps State.dt he (overlay_dt fun x => hno w x hf) fun _ => rfl
    rw [State.endCycle_fault] at ht
    rw [State.endCycle_cfg] at htm
    obtain ⟨htick, -⟩ := State.toNat_endCycle_timers ht htm
    rw [htick, hdt, State.latch_dt]

/-- Settles O13, by induction on the number of cycles: the first lowers DT by one (`toNat_dt_of_step`), and the states
the others begin in are those of the whole run. -/
theorem delayTimerCountsCycles : Obligations.DelayTimerCountsCycles := by
  intro k s t hm hno hrun ht
  induction k generalizing s with
  | zero =>
    cases hrun
    rfl
  | succ k ih =>
    obtain ⟨u, hu⟩ := step_answers s
    rw [run_succ_of_step hu] at hrun
    have hfirst : u.dt.toNat = s.dt.toNat - 1 :=
      toNat_dt_of_step hm hu (fault_none_of_run hrun ht) fun w x => hno 0 s w x k.succ_pos rfl
    have hrest : t.dt.toNat = u.dt.toNat - k :=
      ih u (step_cfg hu ▸ hm)
        (fun j v w x hj hv => hno (j + 1) v w x (Nat.succ_lt_succ hj) ((run_succ_of_step hu j).trans hv)) hrun
    omega

/-! ### The index register -/

/-- The largest glyph address, with the font as high as R52 allows, fits I. -/
theorem State.toNat_glyphAddr (s : State) (x : Reg) :
    (s.glyphAddr x).toNat = s.cfg.fontBase.val + 5 * (s.reg x).toNat := by
  have : s.cfg.fontBase.val < 433 := s.cfg.fontBase.isLt
  have := (s.reg x).isLt
  simp only [State.glyphAddr, BitVec.toNat_ofNat]
  omega

/-- Settles O33: I takes `nnn` zero-extended. -/
theorem ldISetsTheIndex : Obligations.LdISetsTheIndex :=
  fun nnn _ => ⟨decodeWord_encode (i := .ldI nnn) rfl, zext16 nnn, toNat_zext16 nnn, rfl⟩

/-- Settles O34: the sum of ADD I is cut to 16 bits, the address of LD F needs no cut. -/
theorem addIAndLdF : Obligations.AddIAndLdF :=
  fun x s => ⟨decodeWord_encode (i := .addI x) rfl, decodeWord_encode (i := .ldF x) rfl,
    ⟨_, BitVec.toNat_ofNat _ 16, rfl⟩, ⟨s.glyphAddr x, s.toNat_glyphAddr x, rfl⟩⟩

/-! ### The timer moves -/

/-- Settles O35: one `setReg` and two stores to a timer, which the end of the same cycle ticks. -/
theorem timerMoves : Obligations.TimerMoves := by
  intro x s
  refine ⟨decodeWord_encode (i := .ldVxDT x) rfl, decodeWord_encode (i := .ldDT x) rfl,
    decodeWord_encode (i := .ldST x) rfl, ?readDT, rfl, rfl, fun hf hm => ?tick⟩
  case readDT => exact ⟨s.setReg x s.dt, rfl, s.reg_setReg_self x _, fun r hr => s.reg_setReg_ne _ hr, rfl⟩
  case tick =>
    obtain ⟨hdt, -⟩ := State.toNat_endCycle_timers (s := { s with dt := s.reg x }) hf hm
    obtain ⟨-, hst⟩ := State.toNat_endCycle_timers (s := { s with st := s.reg x }) hf hm
    exact ⟨hdt, hst⟩

end Sys2Proof.Machine
end

section
/-! PROOFS. The framebuffer controller (43_display.md R118 to R127): CLS, the draw that fits as one canvas, the draw
that faults, and the second draw of one sprite. -/

namespace Sys2Proof.Machine

variable {x y : Reg} {n : Nibble} {s u : State}

/-- Settles O36: the word is a clause of O4, and every cell of the cleared framebuffer is off. -/
theorem clsClearsTheFramebuffer : Obligations.ClsClearsTheFramebuffer := by
  obtain ⟨hcls, -⟩ := decodeIgnoresUnkeyedBits
  exact ⟨hcls, fun _ => ⟨_, rfl, get_clearFramebuffer, rfl⟩⟩

/-! ### A draw that fits -/

/-- What the sprite at I makes of the framebuffer: the cells and the collision flag (R119, R121). -/
def State.drawn (s : State) (x y : Reg) (n : Nibble) : Canvas :=
  (Canvas.mk s.fb false).plots (s.spriteCells (s.originCol x) (s.originRow y) (List.range n.toNat))

theorem exec_drw_fits (h : ∀ j, j < n.toNat → s.rowFits x y j) :
    exec (.drw x y n) s =
      .next { s.setReg vF (flagByte (s.drawn x y n).collision) with fb := (s.drawn x y n).fb } := by
  have hrows := drawRows_ok ⟨s.fb, false⟩ fun j hj =>
    (s.fitsAt_iff_rowFits x y j).2 (h j (List.mem_range.1 hj))
  simp only [exec, execDrw, hrows, settle_ok, State.drawn]

theorem State.get_drawn_of_covers {r : Fin fbHeight} {c : Fin fbWidth} (h : s.spriteCovers x y n r c) :
    Framebuffer.get (s.drawn x y n).fb r c = !s.cell r c := by
  rw [State.drawn, Canvas.get_plots (s.nodup_spriteCells ..), if_pos ((s.mem_spriteCells ..).2 h), State.cell]

theorem State.get_drawn_of_not_covers {r : Fin fbHeight} {c : Fin fbWidth} (h : ¬ s.spriteCovers x y n r c) :
    Framebuffer.get (s.drawn x y n).fb r c = s.cell r c := by
  rw [State.drawn, Canvas.get_plots (s.nodup_spriteCells ..), if_neg (mt (s.mem_spriteCells ..).1 h), State.cell]

theorem State.collision_drawn :
    (s.drawn x y n).collision = true ↔ ∃ r c, s.spriteCovers x y n r c ∧ s.cell r c = true := by
  simp only [State.drawn, Canvas.collision_plots (s.nodup_spriteCells ..), State.mem_spriteCells, State.cell,
    Bool.false_eq_true, false_or]

theorem State.toNat_flag_drawn_of_on (h : ∃ r c, s.spriteCovers x y n r c ∧ s.cell r c = true) :
    (flagByte (s.drawn x y n).collision).toNat = 1 := by
  rw [toNat_flagByte, if_pos (State.collision_drawn.2 h)]

theorem State.toNat_flag_drawn_of_off (h : ∀ r c, s.spriteCovers x y n r c → s.cell r c = false) :
    (flagByte (s.drawn x y n).collision).toNat = 0 := by
  rw [toNat_flagByte, if_neg]
  intro hcol
  obtain ⟨r, c, hcov, hon⟩ := State.collision_drawn.1 hcol
  exact Bool.false_ne_true ((h r c hcov).symm.trans hon)

/-- Settles O37: the draw leaves `drawn`, the flag in VF. -/
theorem drwXorsTheSprite : Obligations.DrwXorsTheSprite := by
  intro x y n s
  refine ⟨decodeWord_encode (i := .drw x y n) rfl, fun hfit => ⟨_, exec_drw_fits hfit,
    fun r c => State.get_drawn_of_covers, fun r c => State.get_drawn_of_not_covers, fun hon => ?on, fun hoff => ?off,
    fun r hr => s.reg_setReg_ne _ hr, rfl⟩⟩
  case on => exact (congrArg BitVec.toNat (s.reg_setReg_self vF _)).trans (State.toNat_flag_drawn_of_on hon)
  case off => exact (congrArg BitVec.toNat (s.reg_setReg_self vF _)).trans (State.toNat_flag_drawn_of_off hoff)

/-! ### A draw that faults -/

theorem exec_drw_faults {k : Fault}
    (h : ∀ d, drawRows s (s.originCol x) (s.originRow y) (List.range n.toNat) d = .error k) :
    exec (.drw x y n) s = .next (s.takeFault k) := by
  simp only [exec, execDrw, h, settle_error]

/-- Settles O38: no row before `j` faults, so the draw faults as row `j` does (`drawRows_faults`), and the row as its
first column that faults (`drawRow_faults`). -/
theorem drwReportsTheFirstFault : Obligations.DrwReportsTheFirstFault := by
  intro x y n s j hj hfit
  have hrow (d : Canvas) := drawRows_faults (List.range j) (List.range' (j + 1) (n.toNat - j - 1)) j d fun m hm =>
    (s.fitsAt_iff_rowFits x y m).2 (hfit m (List.mem_range.1 hm))
  simp only [← range_split hj] at hrow
  refine ⟨fun haddr => ?address, fun k haddr hk ⟨hedge, hset, hout⟩ hearlier => ?column⟩
  case address =>
    refine exec_drw_faults fun d => ?_
    obtain ⟨hbounds, -⟩ := hrow d
    exact hbounds haddr
  case column =>
    refine exec_drw_faults fun d => ?_
    obtain ⟨-, hbit⟩ := hrow d
    refine hbit _ haddr fun e => ?_
    rw [range_split hk]
    exact drawRow_faults _ _ k e
      (fun m hm hmset ⟨hmedge, hmout⟩ => hearlier m (List.mem_range.1 hm) ⟨hmedge, hmset, hmout⟩) hset hedge hout

/-! ### The second draw -/

/-- Two states that agree on what row `j` of a sprite reads agree on its bits. -/
theorem State.spriteSets_congr {j : Nat} (hi : u.i = s.i)
    (hbyte : u.byteAt (s.i.toNat + j) = s.byteAt (s.i.toNat + j)) (k : Nat) : u.spriteSets j k ↔ s.spriteSets j k := by
  rw [State.spriteSets, State.spriteSets, hi, hbyte]

theorem State.rowFits_congr {j : Nat} (hcfg : u.cfg = s.cfg) (hi : u.i = s.i) (hx : u.reg x = s.reg x)
    (hy : u.reg y = s.reg y) (hbyte : u.byteAt (s.i.toNat + j) = s.byteAt (s.i.toNat + j)) :
    u.rowFits x y j ↔ s.rowFits x y j := by
  simp only [State.rowFits, State.bitFaults, State.spriteSets_congr hi hbyte, hcfg, hi, hx, hy]

theorem State.spriteCovers_congr (hcfg : u.cfg = s.cfg) (hi : u.i = s.i) (hx : u.reg x = s.reg x)
    (hy : u.reg y = s.reg y) (hbytes : ∀ j, j < n.toNat → u.byteAt (s.i.toNat + j) = s.byteAt (s.i.toNat + j))
    (r : Fin fbHeight) (c : Fin fbWidth) : u.spriteCovers x y n r c ↔ s.spriteCovers x y n r c := by
  simp only [State.spriteCovers, hcfg, hx, hy]
  refine exists_congr fun j => exists_congr fun k => and_congr_right fun hj => ?_
  rw [State.spriteSets_congr hi (hbytes j hj)]

/-- Settles O39, by O37 for each draw: both cover the same cells, and a cell inverted twice is as it was; a covered cell
is on before the second draw exactly if the first turned it on. -/
theorem drawingTwiceRestoresTheFramebuffer : Obligations.DrawingTwiceRestoresTheFramebuffer := by
  intro x y n s t u hfit hfirst hcfg hfb hi hx hy hbytes
  obtain ⟨-, hdraw⟩ := drwXorsTheSprite x y n s
  obtain ⟨t', hexec, hflip, hkeep, -⟩ := hdraw hfit
  cases hfirst.symm.trans hexec
  obtain ⟨-, hredraw⟩ := drwXorsTheSprite x y n u
  obtain ⟨q, hsecond, hflip', hkeep', hon, hoff, -⟩ :=
    hredraw fun j hj => (State.rowFits_congr hcfg hi hx hy (hbytes j hj)).2 (hfit j hj)
  have hcov := State.spriteCovers_congr hcfg hi hx hy hbytes
  have hcell (r : Fin fbHeight) (c : Fin fbWidth) : u.cell r c = t.cell r c :=
    congrArg (Framebuffer.get · r c) hfb
  refine ⟨q, hsecond, Framebuffer.ext_get fun r c => ?restored, fun ⟨r, c, hs, ht⟩ => hon ⟨r, c, ?covered, ?on⟩,
    fun hnone => hoff fun r c hu => ?off⟩
  case restored =>
    change q.cell r c = s.cell r c
    by_cases h : s.spriteCovers x y n r c
    · rw [hflip' r c ((hcov r c).2 h), hcell, hflip r c h, Bool.not_not]
    · rw [hkeep' r c (mt (hcov r c).1 h), hcell, hkeep r c h]
  case covered =>
    by_contra h
    rw [hkeep r c (mt (hcov r c).2 h), hs] at ht
    cases ht
  case on => rw [hcell, ht]
  case off =>
    have ht := hflip r c ((hcov r c).1 hu)
    rw [hcell]
    cases hs : s.cell r c
    · exact hnone r c hs
    · rw [ht, hs, Bool.not_true]

end Sys2Proof.Machine
end

section
/-! PROOFS. The key instructions (44_keypad.md R128 to R132): the two skips, LD Vx, K by the keys it scans, and the
cycles of one that waits. -/

namespace Sys2Proof.Machine

variable {x : Reg} {s : State}

/-! ### Skips on a key -/

theorem exec_skp_key (k : Fin numKeys) (h : (s.reg x).toNat = k.val) :
    exec (.skp x) s = .next (s.skipIf (s.key k)) := by
  simp only [exec, execSkp, s.keyIndex_ok k h, settle_ok]

theorem exec_sknp_key (k : Fin numKeys) (h : (s.reg x).toNat = k.val) :
    exec (.sknp x) s = .next (s.skipIf (!s.key k)) := by
  simp only [exec, execSknp, s.keyIndex_ok k h, settle_ok]

theorem exec_keySkip_range {i : Instr} (hi : i ∈ [Instr.skp x, .sknp x]) (h : numKeys ≤ (s.reg x).toNat) :
    exec i s = .next (s.takeFault (.keyRange (s.reg x))) := by
  fin_cases hi
  · simp only [exec, execSkp, s.keyIndex_error h, settle_error]
  · simp only [exec, execSknp, s.keyIndex_error h, settle_error]

/-- Settles O40, by whether V[x] names a key and whether that key is pressed; that W[7:4] plays no part is O4. -/
theorem keySkipsReadTheNamedKey : Obligations.KeySkipsReadTheNamedKey := by
  obtain ⟨-, -, -, -, hskp, hsknp, -⟩ := decodeIgnoresUnkeyedBits
  refine fun x m s => ⟨hskp x m, hsknp x m, fun k hk => ?named, fun h i hi => exec_keySkip_range hi h⟩
  case named =>
    rw [exec_skp_key k hk, exec_sknp_key k hk, State.key]
    cases s.keys[k.val] <;> exact ⟨rfl, rfl⟩

/-! ### LD Vx, K -/

theorem exec_ldVxK_pressed (x : Reg) (k : Fin numKeys) (h : s.keys[k.val] = true)
    (hlow : ∀ m : Fin numKeys, m.val < k.val → s.keys[m.val] = false) :
    exec (.ldVxK x) s = .next (s.setReg x (BitVec.ofNat 8 k.val)) := by
  simp only [exec, execLdVxK, s.firstKey_some k h hlow]

theorem exec_ldVxK_none (x : Reg) (h : ∀ m : Fin numKeys, s.keys[m.val] = false) :
    exec (.ldVxK x) s = .next s.rewind := by
  simp only [exec, execLdVxK, s.firstKey_none h]

/-- A key's index fits a register. -/
theorem State.toNat_reg_setReg_key (s : State) (x : Reg) (k : Fin numKeys) :
    ((s.setReg x (BitVec.ofNat 8 k.val)).reg x).toNat = k.val := by
  have : k.val < 16 := k.isLt
  rw [State.reg_setReg_self, BitVec.toNat_ofNat]
  omega

/-- Settles O41, by whether the scan finds a key. -/
theorem keyWaitTakesTheLowestKey : Obligations.KeyWaitTakesTheLowestKey :=
  fun x s => ⟨decodeWord_encode (i := .ldVxK x) rfl,
    fun k hk hlow => ⟨_, exec_ldVxK_pressed x k hk hlow, s.toNat_reg_setReg_key x k, fun _ hr => s.reg_setReg_ne _ hr,
      rfl⟩,
    exec_ldVxK_none x⟩

/-! ### The cycles of a waiting LD Vx, K -/

/-- The end of a cycle writes neither PC nor memory, so the next fetch is the same. -/
theorem State.fetch_endCycle (s : State) : s.endCycle.fetch = s.fetch := by
  refine State.fetch_congr s.endCycle_pc fun a => ?_
  rw [State.endCycle_frame]
  rfl

/-- The next cycle runs `w`, an `LD Vx, K` (R131), whatever the keys. -/
structure AtKeyScan (x : Reg) (w : Word) (s : State) : Prop where
  running : s.fault = none
  fetches : s.fetch = .ok w
  decodes : decodeWord w = .ldVxK x

/-- The next cycle runs an `LD Vx, K` that finds no key pressed (R132). -/
structure AtKeyWait (x : Reg) (w : Word) (s : State) : Prop extends AtKeyScan x w s where
  noKey : ∀ m : Fin numKeys, s.keys[m.val] = false

section
variable {w : Word}

/-- The rewind puts PC back where the fetch found it, and the cycle's end drops the latched word. -/
theorem AtKeyWait.step_eq (h : AtKeyWait x w s) : step s = .next s.endCycle := by
  have hpc : s.pc + 2#16 - 2#16 = s.pc := BitVec.add_sub_cancel ..
  have hexec : exec (decodeWord w) (s.latch w) = .next ((s.latch w).jumpTo s.pc) := by
    rw [h.decodes, exec_ldVxK_none (s := s.latch w) x h.noKey, State.rewind, State.latch_pc, hpc]
  calc step s
      = .next ((s.latch w).jumpTo s.pc).endCycle := step_runs h.running h.fetches hexec
    _ = .next s.endCycle := rfl

theorem AtKeyWait.endCycle (h : AtKeyWait x w s) : AtKeyWait x w s.endCycle where
  running := s.endCycle_fault.trans h.running
  fetches := s.fetch_endCycle.trans h.fetches
  decodes := h.decodes
  noKey m := by rw [State.endCycle_keys, h.noKey m]

/-- The keys decide only what the scan finds. -/
theorem AtKeyScan.setKeys (h : AtKeyScan x w s) (keys : Vector Bool numKeys) : AtKeyScan x w (s.setKeys keys) :=
  ⟨h.running, h.fetches, h.decodes⟩

/-- The cycle that finds exactly one key pressed stores its index, and PC stays past the instruction. -/
theorem AtKeyScan.step_oneKey (h : AtKeyScan x w s) (k : Fin numKeys)
    (hk : ∀ m : Fin numKeys, s.keys[m.val] = decide (m = k)) :
    ∃ u, step s = .next u ∧ (u.reg x).toNat = k.val ∧ u.pc = s.pc + 2#16 := by
  have hlow (m : Fin numKeys) (hm : m.val < k.val) : s.keys[m.val] = false := by
    rw [hk m, decide_eq_false (Fin.ne_of_lt hm)]
  have hpressed : s.keys[k.val] = true := by rw [hk k, decide_eq_true rfl]
  have hexec : exec (decodeWord w) (s.latch w) = .next ((s.latch w).setReg x (BitVec.ofNat 8 k.val)) := by
    rw [h.decodes, exec_ldVxK_pressed (s := s.latch w) x k hpressed hlow]
  refine ⟨_, step_runs h.running h.fetches hexec, ?index, State.endCycle_pc _⟩
  case index => rw [State.reg_congr (State.endCycle_v _), State.toNat_reg_setReg_key]

end

/-- Settles O42: each waiting cycle only ends and waits again, so any number of them idles (`run_idle`); the next one
runs the same instruction at the same PC, whatever keys it finds. -/
theorem keyWaitSpinsUntilAKey : Obligations.KeyWaitSpinsUntilAKey := by
  intro n x s w hs hf hd hkeys
  obtain ⟨t, hrun, ht, hidle⟩ := run_idle (P := AtKeyWait x w) (fun _ => AtKeyWait.step_eq)
    (fun _ => AtKeyWait.endCycle) (fun _ h => h.running) n ⟨⟨hs, hf, hd⟩, hkeys⟩
  have hpc : t.pc = s.pc := by rw [hidle.frame]
  refine ⟨t, hrun, hidle.frame, hidle.counted, hidle.still, fun k keys hk => ?pressed⟩
  case pressed =>
    rw [← hpc]
    exact (ht.toAtKeyScan.setKeys keys).step_oneKey k hk

end Sys2Proof.Machine
end

section
/-! PROOFS. The memory-block instructions (45_memory_block.md R134 to R139): a block store and a register load, each by
whether its block fits in memory, and a dump loaded back. -/

namespace Sys2Proof.Machine

variable {x : Reg} {s : State} {j : Nat}

/-! ### Block stores -/

section
variable {a : Nat} {vs : List Byte}

theorem settle_writeBytes_fits (h : a + vs.length ≤ memSize) :
    ∃ t, settle s (s.writeBytes a vs) = .next t ∧ (∀ k (hk : k < vs.length), t.byteAt (a + k) = vs[k]) ∧
      (∀ b, b < a ∨ a + vs.length ≤ b → t.byteAt b = s.byteAt b) ∧ t = { s with mem := t.mem } := by
  obtain ⟨t, ht⟩ := State.writeBytes_fits (s := s) h
  obtain ⟨-, hstored, hkept, hframe, -⟩ := State.writeBytes_ok ht
  exact ⟨t, by rw [ht, settle_ok], hstored, hkept, hframe⟩

theorem settle_writeBytes_faults (hj : j < vs.length) (hge : memSize ≤ a + j)
    (hlt : ∀ m, m < j → a + m < memSize) :
    settle s (s.writeBytes a vs) = .next (s.takeFault (.bounds (a + j))) := by
  rw [State.writeBytes_faults hj hge hlt, settle_error]

end

/-- LD B stores the three digits from I up. -/
theorem exec_ldB (x : Reg) (s : State) :
    exec (.ldB x) s = settle s (s.writeBytes s.i.toNat (bcdDigits (s.reg x))) := rfl

/-- LD [I], Vx stores the registers from I up. -/
theorem exec_ldAtI (x : Reg) (s : State) :
    exec (.ldAtI x) s = settle s (s.writeBytes s.i.toNat (s.regsUpTo x)) := rfl

@[simp] theorem length_bcdDigits (b : Byte) : (bcdDigits b).length = 3 := rfl

/-- Each digit fits a byte, so none is cut. -/
theorem toNat_bcdDigits (b : Byte) : (bcdDigits b)[0].toNat = b.toNat / 100 ∧
    (bcdDigits b)[1].toNat = b.toNat / 10 % 10 ∧ (bcdDigits b)[2].toNat = b.toNat % 10 := by
  have := b.isLt
  simp only [bcdDigits, List.getElem_cons_zero, List.getElem_cons_succ, BitVec.toNat_ofNat]
  omega

/-- Settles O43: a block store of the three digits, by whether it fits. -/
theorem bcdStoresThreeDigits : Obligations.BcdStoresThreeDigits := by
  refine fun x s => ⟨decodeWord_encode (i := .ldB x) rfl, fun h => ?fits, fun j hj hge hlt =>
    (exec_ldB x s).trans (settle_writeBytes_faults (Nat.lt_succ_of_le hj) hge hlt)⟩
  case fits =>
    obtain ⟨t, ht, hstored, hkept, hframe⟩ :=
      settle_writeBytes_fits (s := s) (vs := bcdDigits (s.reg x)) (Nat.succ_le_of_lt h)
    obtain ⟨hhundreds, htens, hunits⟩ := toNat_bcdDigits (s.reg x)
    exact ⟨t, (exec_ldB x s).trans ht, (congrArg BitVec.toNat (hstored 0 (by simp))).trans hhundreds,
      (congrArg BitVec.toNat (hstored 1 (by simp))).trans htens,
      (congrArg BitVec.toNat (hstored 2 (by simp))).trans hunits, hkept, hframe⟩

/-- Settles O44: a block store of the registers, by whether it fits. -/
theorem dumpStoresTheRegisters : Obligations.DumpStoresTheRegisters := by
  intro x s
  have hlen : (s.regsUpTo x).length = x.toNat + 1 := s.length_regsUpTo x
  refine ⟨decodeWord_encode (i := .ldAtI x) rfl, fun (h : s.i.toNat + x.toNat < memSize) => ?fits, fun j hj hge hlt =>
    (exec_ldAtI x s).trans (settle_writeBytes_faults (by omega) hge hlt)⟩
  case fits =>
    obtain ⟨t, ht, hstored, hkept, hframe⟩ :=
      settle_writeBytes_fits (s := s) (a := s.i.toNat) (vs := s.regsUpTo x) (by omega)
    refine ⟨t, (exec_ldAtI x s).trans ht, fun r hr => ?stored, fun a ha => hkept a (by omega), hframe⟩
    case stored =>
      have hr : r.toNat < (s.regsUpTo x).length := by omega
      rw [hstored r.toNat hr, s.getElem_regsUpTo x r hr]

/-! ### The register load -/

/-- LD Vx, [I] loads `V0` to `Vx` in rising order. -/
theorem exec_ldVxAtI (x : Reg) (s : State) :
    exec (.ldVxAtI x) s = settle s (s.loadRegs (List.range (x.toNat + 1))) := rfl

theorem exec_ldVxAtI_fits (h : s.i.toNat + x.toNat < memSize) :
    ∃ t, exec (.ldVxAtI x) s = .next t ∧
      (∀ r : Reg, r.toNat ≤ x.toNat → t.reg r = s.byteAt (s.i.toNat + r.toNat)) ∧
      (∀ r : Reg, x.toNat < r.toNat → t.reg r = s.reg r) ∧ t = { s with v := t.v } := by
  have hmem (k : Nat) : k ∈ List.range (x.toNat + 1) ↔ k ≤ x.toNat := by rw [List.mem_range, Nat.lt_succ_iff]
  obtain ⟨t, ht⟩ := State.loadRegs_fits (s := s) (ks := List.range (x.toNat + 1)) fun k hk =>
    Nat.lt_of_le_of_lt (Nat.add_le_add_left ((hmem k).1 hk) _) h
  obtain ⟨hloaded, hkept, hframe⟩ := State.loadRegs_ok ht fun k hk =>
    Nat.lt_of_le_of_lt ((hmem k).1 hk) x.isLt
  refine ⟨t, by rw [exec_ldVxAtI, ht, settle_ok], fun r hr => ?loaded,
    fun r hr => hkept r fun hin => Nat.not_le.2 hr ((hmem _).1 hin), hframe⟩
  case loaded =>
    obtain ⟨-, hbyte⟩ := hloaded r.toNat ((hmem _).2 hr)
    rwa [ofNat_toNat_reg] at hbyte

theorem exec_ldVxAtI_faults (hj : j ≤ x.toNat) (hge : memSize ≤ s.i.toNat + j)
    (hlt : ∀ m, m < j → s.i.toNat + m < memSize) :
    exec (.ldVxAtI x) s = .next (s.takeFault (.bounds (s.i.toNat + j))) := by
  rw [exec_ldVxAtI, range_split (Nat.lt_succ_of_le hj),
    State.loadRegs_faults _ _ j (fun m hm => hlt m (List.mem_range.1 hm)) hge, settle_error, State.indexAddr]

/-- Settles O45, by whether the load fits. -/
theorem loadFillsTheRegisters : Obligations.LoadFillsTheRegisters :=
  fun x _ => ⟨decodeWord_encode (i := .ldVxAtI x) rfl, exec_ldVxAtI_fits, fun _ => exec_ldVxAtI_faults⟩

/-! ### A dump loaded back -/

/-- Settles O46: the load (O45) reads the bytes at I that the dump (O44) put there, and neither writes I. -/
theorem dumpThenLoadRestoresTheRegisters : Obligations.DumpThenLoadRestoresTheRegisters := by
  intro x s t u hfit hdump hi hbytes
  obtain ⟨-, hstores, -⟩ := dumpStoresTheRegisters x s
  obtain ⟨t', hexec, hstored, -, hframe⟩ := hstores hfit
  cases hdump.symm.trans hexec
  obtain ⟨q, hload, hloaded, -, hframe'⟩ := exec_ldVxAtI_fits (x := x) (s := u) (by rwa [hi])
  refine ⟨q, hload, fun r hr => ?restored, ?index, by rw [hframe]⟩
  case restored =>
    calc q.reg r
        = u.byteAt (s.i.toNat + r.toNat) := by rw [hloaded r hr, hi]
      _ = t.byteAt (s.i.toNat + r.toNat) := hbytes _
      _ = s.reg r := hstored r hr
  case index =>
    have hqi : q.i = u.i := by rw [hframe']
    exact hqi.trans hi

end Sys2Proof.Machine
end

section
/-! PROOFS. Faults, timers and the ports that show them (60_exceptions.md R141 to R144, R151 to R158): what each
operation raises, what fault entry records, and what a halted machine and the host's ports leave as it stands. -/

namespace Sys2Proof.Machine

variable {i : Instr} {s t : State} {r : FaultRecord}

/-! ### What each operation raises -/

/-- An operation that may fault leaves FAULT alone where it completes, and raises what its computation names. -/
theorem settle_raises {q : Except Fault State} {P : Fault → Prop} (h : settle s q = .next t)
    (ok : ∀ u, q = .ok u → u.fault = s.fault) (error : ∀ k, q = .error k → P k) :
    t.fault = s.fault ∨ ∃ k, P k ∧ t = s.takeFault k := by
  obtain hq | ⟨k, hq, rfl⟩ := settle_cases s h
  · exact .inl (ok t hq)
  · exact .inr ⟨k, error k hq, rfl⟩

theorem State.skipIf_fault (s : State) (b : Bool) : (s.skipIf b).fault = s.fault := by rw [State.skipIf_frame]

theorem State.writeBytes_fault {a : Nat} {vs : List Byte} (h : s.writeBytes a vs = .ok t) : t.fault = s.fault := by
  obtain ⟨-, -, -, hframe, -⟩ := State.writeBytes_ok h
  rw [hframe]

theorem State.keyIndex_eq_error {x : Reg} {k : Fault} (h : s.keyIndex x = .error k) :
    numKeys ≤ (s.reg x).toNat ∧ k = .keyRange (s.reg x) := by
  by_cases hkey : (s.reg x).toNat < numKeys
  · cases (s.keyIndex_ok ⟨_, hkey⟩ rfl).symm.trans h
  · have hrange := Nat.not_lt.1 hkey
    cases (s.keyIndex_error hrange).symm.trans h
    exact ⟨hrange, rfl⟩

theorem execUnassigned_raises {w : Word} (h : execUnassigned w s = .next t) :
    t.fault = s.fault ∨ ∃ k, (s.cfg.unassignedPolicy = .fault ∧ k = .unassigned w) ∧ t = s.takeFault k := by
  cases hp : s.cfg.unassignedPolicy with
  | nop =>
    cases (execUnassigned_nop w hp).symm.trans h
    exact .inl rfl
  | fault =>
    cases (execUnassigned_fault w hp).symm.trans h
    exact .inr ⟨_, ⟨rfl, rfl⟩, rfl⟩

/-- R141 with R142: an instruction leaves FAULT alone, or enters a fault that R141 lists for it. -/
theorem exec_raises (h : exec i s = .next t) : t.fault = s.fault ∨ ∃ k, mayRaise i s k ∧ t = s.takeFault k := by
  cases i
  case ret =>
    by_cases h0 : s.sp.val = 0
    · cases (exec_ret_empty h0).symm.trans h
      exact .inr ⟨_, ⟨h0, rfl⟩, rfl⟩
    · cases (exec_ret_nonempty (Nat.pos_of_ne_zero h0)).symm.trans h
      exact .inl rfl
  case call nnn =>
    by_cases hfull : s.sp.val = stackDepth
    · cases (exec_call_full nnn hfull).symm.trans h
      exact .inr ⟨_, ⟨hfull, rfl⟩, rfl⟩
    · have hroom : s.sp.val < stackDepth := by have := s.sp.isLt; omega
      cases (exec_call_room nnn hroom).symm.trans h
      exact .inl rfl
  case drw x y n =>
    refine settle_raises h (fun u hu => ?completes) fun k hk => ?faults
    case completes =>
      split at hu <;> cases hu
      rfl
    case faults =>
      split at hk <;> cases hk
      rename_i hrows
      obtain ⟨j, hj, hrow⟩ | hedge := drawRows_error hrows
      · exact .inl ⟨j, List.mem_range.1 hj, hrow⟩
      · exact .inr hedge
  case skp | sknp =>
    refine settle_raises h (fun u hu => ?completes) fun k hk => ?faults
    case completes =>
      split at hu <;> cases hu
      exact s.skipIf_fault _
    case faults =>
      split at hk <;> cases hk
      rename_i hkey
      exact State.keyIndex_eq_error hkey
  case ldB x =>
    refine settle_raises h (fun _ => State.writeBytes_fault) fun k hk => ?_
    obtain ⟨j, hj, hout⟩ := State.writeBytes_error hk
    exact ⟨j, Nat.le_of_lt_succ hj, hout⟩
  case ldAtI x =>
    refine settle_raises h (fun _ => State.writeBytes_fault) fun k hk => ?_
    obtain ⟨j, hj, hout⟩ := State.writeBytes_error hk
    rw [s.length_regsUpTo] at hj
    exact ⟨j, Nat.le_of_lt_succ hj, hout⟩
  case ldVxAtI x =>
    refine settle_raises h (fun u hu => ?completes) fun k hk => ?faults
    case completes =>
      obtain ⟨-, -, hframe⟩ := State.loadRegs_ok hu fun k hk => by have := List.mem_range.1 hk; omega
      rw [hframe]
    case faults =>
      obtain ⟨j, hj, hout⟩ := State.loadRegs_error hk
      exact ⟨j, Nat.le_of_lt_succ (List.mem_range.1 hj), hout⟩
  case nop0 | nop8 | nopE | nopF => exact execUnassigned_raises h
  case addReg | sub | shr | subn | shl =>
    cases h
    exact .inl (State.writeFlagged_fault ..)
  case seImm | sneImm | seReg | sneReg =>
    cases h
    exact .inl (s.skipIf_fault _)
  case ldVxK =>
    simp only [exec, execLdVxK] at h
    split at h <;> cases h <;> exact .inl rfl
  all_goals
    cases h
    exact .inl rfl

/-- Where FAULT was clear, a recorded fault is one the instruction entered. -/
theorem exec_faulted (h : exec i s = .next t) (hs : s.fault = none) (ht : t.fault = some r) :
    mayRaise i s r.kind ∧ r = ⟨r.kind, s.pc - 2#16, s.w⟩ ∧ t = s.takeFault r.kind := by
  obtain hkept | ⟨k, hk, rfl⟩ := exec_raises h
  · cases hs.symm.trans (hkept.symm.trans ht)
  · cases ht
    exact ⟨hk, rfl, rfl⟩

/-- Settles O10: a fault is one `mayRaise` allows, entered from the state the operation found (`exec_faulted`). -/
theorem faultsComeOnlyFromTheirOperations : Obligations.FaultsComeOnlyFromTheirOperations := by
  intro i s t r hs h ht
  obtain ⟨hmay, hr, rfl⟩ := exec_faulted h hs ht
  refine ⟨hmay, congrArg FaultRecord.p hr, congrArg FaultRecord.w hr, ?_⟩
  rw [← ht]
  rfl

/-! ### Fault entry of a cycle -/

/-- Fault entry undoes the fetch: `W` is dropped with the cycle and PC is back at `P` (R142). -/
theorem State.endCycle_takeFault_latch (s : State) (w : Word) (k : Fault) (hw : s.w = none) :
    ((s.latch w).takeFault k).endCycle = { s with fault := some ⟨k, s.pc, some w⟩ } := by
  have hpc : s.pc + 2#16 - 2#16 = s.pc := BitVec.add_sub_cancel ..
  rw [State.endCycle_still (.inl (by simp))]
  simp only [State.takeFault, State.enterFault, State.latch, hpc, ← hw]

/-- Settles O9: a fetch that fails enters its fault with no word; an operation that faults undoes the fetch. -/
theorem faultEntryKeepsAllButTheRecord : Obligations.FaultEntryKeepsAllButTheRecord := by
  intro s t r hs hw h ht
  obtain ⟨hne, -⟩ | ⟨-, k, hf, rfl⟩ | ⟨-, w, u, hf, he, rfl⟩ := step_cases h
  case inl => exact absurd hs hne
  case inr.inl =>
    cases ht
    refine ⟨rfl, rfl, fun _ => rfl, fun hlt => ?_⟩
    cases hf.symm.trans (s.fetch_of_lt hlt)
  case inr.inr =>
    obtain ⟨-, -, rfl⟩ := exec_faulted he hs (u.endCycle_fault.symm.trans ht)
    rw [s.endCycle_takeFault_latch w r.kind hw] at ht ⊢
    obtain ⟨hlt, hword⟩ := State.fetch_eq_ok.1 hf
    have hr : ⟨r.kind, s.pc, some w⟩ = r := Option.some.inj ht
    exact ⟨by rw [← ht], (congrArg FaultRecord.p hr).symm, fun hge => absurd hlt (Nat.not_lt.2 hge),
      fun _ => hword ▸ (congrArg FaultRecord.w hr).symm⟩

/-! ### The tick -/

/-- Settles O12: the cycle is the operation and then its end, which ticks both timers once. -/
theorem timersTickOncePerCompletedCycle : Obligations.TimersTickOncePerCompletedCycle := by
  intro s u hs hpc hm hu hexec
  obtain ⟨hdt, hst⟩ := State.toNat_endCycle_timers hu hm
  refine ⟨u.endCycle, step_runs hs (s.fetch_of_lt hpc) hexec, hdt, hst, ?frame⟩
  case frame =>
    rw [State.endCycle_w]
    exact u.endCycle_frame

theorem State.hostTimerTick_halted (h : s.fault ≠ none) : s.hostTimerTick = s := by
  unfold State.hostTimerTick
  cases s.cfg.timerMode with
  | perCycle => rfl
  | external => exact if_pos (s.halted_iff.2 h)

theorem State.hostTimerTick_perCycle (h : s.cfg.timerMode = .perCycle) : s.hostTimerTick = s := by
  simp only [State.hostTimerTick, h]

theorem State.hostTimerTick_external (hm : s.cfg.timerMode = .external) (hs : s.fault = none) :
    s.hostTimerTick = s.timerTick := by
  have hrun : ¬ s.halted = true := fun hh => s.halted_iff.1 hh hs
  simp only [State.hostTimerTick, hm]
  exact if_neg hrun

/-- Under EXTERNAL a cycle that runs no LD DT and no LD ST keeps both timers, whether its operation faults or not. -/
theorem step_keeps_timers {w : Word} (hm : s.cfg.timerMode = .external) (hs : s.fault = none) (hf : s.fetch = .ok w)
    (hno : ∀ x, decodeWord w ≠ .ldDT x ∧ decodeWord w ≠ .ldST x) (h : step s = .next t) :
    t.dt = s.dt ∧ t.st = s.st := by
  obtain ⟨u, he⟩ := exec_answers (decodeWord w) (s.latch w)
  have ht : step s = .next u.endCycle := step_runs hs hf he
  cases h.symm.trans ht
  have hmode : u.cfg.timerMode = .external := by rw [← State.endCycle_cfg, step_cfg h, hm]
  have hdt : u.dt = (s.latch w).dt := exec_keeps State.dt he (overlay_dt fun x => (hno x).1) fun _ => rfl
  have hst : u.st = (s.latch w).st := exec_keeps State.st he (overlay_st fun x => (hno x).2) fun _ => rfl
  rw [State.endCycle_still (.inr hmode)]
  exact ⟨hdt, hst⟩

/-- Settles O55: the port by the mode and FAULT, the cycle by `step_keeps_timers`. -/
theorem externalTimersTickOnlyByTheHost : Obligations.ExternalTimersTickOnlyByTheHost := by
  intro s
  refine ⟨fun hm hs => ?external, fun hm => ?perCycle, fun w t hm hs hf hno h => step_keeps_timers hm hs hf hno h⟩
  case external =>
    exact ⟨s.timerTick, by rw [serve, State.hostTimerTick_external hm hs], toNat_countDown s.dt, toNat_countDown s.st,
      rfl⟩
  case perCycle => rw [serve, State.hostTimerTick_perCycle hm]

/-! ### The halted machine -/

theorem State.storeImage_fault (s : State) (a : Nat) (bs : List Byte) : (s.storeImage a bs).fault = s.fault := by
  obtain ⟨-, -, hframe, -⟩ := s.storeImage_spec a bs
  rw [hframe]

/-- R144: no host call but Reset writes a recorded fault. -/
theorem serve_keeps_fault {c : HostCall} {a : HostReply} (hs : s.fault ≠ none) (hc : ∀ font, c ≠ .reset font)
    (h : serve c s = .next (t, a)) : t.fault = s.fault := by
  cases c with
  | reset font => exact absurd rfl (hc font)
  | loadImage bytes =>
    by_cases hlen : bytes.length ≤ 3584
    · cases (serve_loadImage_fits s hlen).symm.trans h
      exact s.storeImage_fault _ _
    · cases (serve_loadImage_oversize s (Nat.not_le.1 hlen)).symm.trans h
      rfl
  | cycle =>
    cases (serve_cycle (step_halted hs)).symm.trans h
    rfl
  | timerTick =>
    rw [serve, State.hostTimerTick_halted hs] at h
    cases h
    rfl
  | setKeys | readFramebuffer | readTimers | readFault =>
    cases h
    rfl

/-- Settles O8, call by call. -/
theorem haltedMachineStaysHalted : Obligations.HaltedMachineStaysHalted := by
  intro s r hr
  have hs : s.fault ≠ none := by simp [hr]
  refine ⟨step_halted hs, ?cycle, ?tick, fun c t a hc h => (serve_keeps_fault hs hc h).trans hr⟩
  case cycle => rw [serve_cycle (step_halted hs), State.cycleReply_of_fault hr]
  case tick => rw [serve, State.hostTimerTick_halted hs]

/-! ### The read ports -/

/-- In row-major order over `m` rows of `n` columns, row and column are read off a place (`finProdFinEquiv`). -/
theorem divNat_modNat_rowMajor {m n : Nat} (r : Fin m) (c : Fin n) (h : r.val * n + c.val < m * n) :
    Fin.divNat ⟨r.val * n + c.val, h⟩ = r ∧ Fin.modNat ⟨r.val * n + c.val, h⟩ = c := by
  have hplace : (⟨r.val * n + c.val, h⟩ : Fin (m * n)) = finProdFinEquiv (r, c) := by
    ext
    simp only [finProdFinEquiv_apply_val, Nat.mul_comm, Nat.add_comm]
  rw [hplace]
  exact Prod.mk.inj (finProdFinEquiv.symm_apply_apply (r, c))

/-- R158: the port gives the cells in row-major order. -/
theorem State.readFramebuffer_eq_ofFn (s : State) (width : Nat) :
    s.readFramebuffer width =
      List.ofFn fun k : Fin (fbHeight * fbWidth) => cellScalar width (s.cell k.divNat k.modNat) := by
  simp only [List.ofFn_mul, divNat_modNat_rowMajor, State.readFramebuffer, List.ofFn_eq_map, List.flatMap_def]

/-- Settles O54: the framebuffer port by its row-major form, the others by definition. -/
theorem readPortsShowTheState : Obligations.ReadPortsShowTheState := by
  intro s width
  refine ⟨?length, fun r c => ?cell, rfl, rfl, rfl⟩
  case length => exact (congrArg List.length (s.readFramebuffer_eq_ofFn width)).trans List.length_ofFn
  case cell =>
    have hr : r.val < 32 := r.isLt
    have hc : c.val < 64 := c.isLt
    have hk : r.val * 64 + c.val < 32 * 64 := by omega
    obtain ⟨hdiv, hmod⟩ := divNat_modNat_rowMajor r c hk
    rw [State.readFramebuffer_eq_ofFn, Nat.mul_comm 64 r.val, List.getElem?_ofFn, dif_pos hk, hdiv, hmod, cellScalar]

end Sys2Proof.Machine
end
